-- ==== Sys2Proof/Word.lean ====
section
/-! DEFINITION. The bit-vector types of the musketeer CORE (00_scope.md R9, R14). -/

namespace Sys2Proof

/-- A 32-bit value: register contents, ALU operands and results, instruction words (R9 `XLEN`, `ILEN`). -/
abbrev Word := BitVec 32

/-- A byte, as an environment's byte-addressed memory holds it (R12). The core itself never sees one. -/
abbrev Byte := BitVec 8

/-- A register index, the 5-bit field of an instruction word or of `dbg_raddr` (R9 `REG_INDEX_BITS`, R30). -/
abbrev RegIdx := BitVec 5

end Sys2Proof
end

