-- ==== Sys2Proof/Config.lean ====
section
/-! DEFINITION. The parameters the spec gives this hardware: what an implementation or an environment fixes
(00_scope.md R10 to R12). Their defaults stand in Decode.lean (`altFunct7`) and Machine/State.lean. -/

namespace Sys2Proof.Config

/-- `UNCLASSIFIED_POLICY` (R11, R91): what the environment does after an unclassified word. -/
inductive UnclassifiedPolicy where
  /-- The environment proceeds to its next word; the registers are unchanged. -/
  | ignore
  /-- The environment treats the word as an illegal-instruction fault and the run stops. -/
  | trap
  deriving DecidableEq, Repr

/-- `FETCH_BYTE_ORDER` (R12, R44): how an environment assembles an instruction word from four bytes.
The spec leaves it OPEN and no rule of the core reads it. DESIGN CHOICE: the two usual orders (log entry 8). -/
inductive FetchByteOrder where
  | little
  | big
  deriving DecidableEq, Repr

/-- The build parameters the core's step depends on (R10, R11). They are fixed at build time and are no
registers (R33); `State.params` carries them so that every statement quantifies over them (log entry 1). -/
structure Params where
  /-- `ALT_FUNCT7` (R10): the funct7 value of SUB and SRA, and the selector of SRAI. -/
  altFunct7 : BitVec 7
  /-- `UNCLASSIFIED_POLICY` (R11). -/
  policy : UnclassifiedPolicy
  deriving DecidableEq, Repr

end Sys2Proof.Config
end

