-- ==== Sys2Proof/Syntax.lean ====
section
/-! DEFINITION. The 19 operations and the instructions (00_scope.md R3, 30_encoding.md R60, R76), one
constructor of `Instr` per row of spec/opcode_table.json. -/

namespace Sys2Proof

/-- The enumerated type `Operation`, in the order of R76 (its `NONE` is `Option.none` here). -/
inductive Operation where
  | add | sub | sll | slt | sltu | xor | srl | sra | or | and
  | addi | slti | sltiu | xori | ori | andi | slli | srli | srai
  deriving DecidableEq, Repr

/-- A classified instruction with the fields its format names (R59). A non-shift immediate `imm` is the 32-bit
value "already sign-extended by the Decoder" (R56, R83); a shift immediate keeps its amount `shamt` (R57). -/
inductive Instr where
  | add   (rd rs1 rs2 : RegIdx)
  | sub   (rd rs1 rs2 : RegIdx)
  | sll   (rd rs1 rs2 : RegIdx)
  | slt   (rd rs1 rs2 : RegIdx)
  | sltu  (rd rs1 rs2 : RegIdx)
  | xor   (rd rs1 rs2 : RegIdx)
  | srl   (rd rs1 rs2 : RegIdx)
  | sra   (rd rs1 rs2 : RegIdx)
  | or    (rd rs1 rs2 : RegIdx)
  | and   (rd rs1 rs2 : RegIdx)
  | addi  (rd rs1 : RegIdx) (imm : Word)
  | slti  (rd rs1 : RegIdx) (imm : Word)
  | sltiu (rd rs1 : RegIdx) (imm : Word)
  | xori  (rd rs1 : RegIdx) (imm : Word)
  | ori   (rd rs1 : RegIdx) (imm : Word)
  | andi  (rd rs1 : RegIdx) (imm : Word)
  | slli  (rd rs1 : RegIdx) (shamt : BitVec 5)
  | srli  (rd rs1 : RegIdx) (shamt : BitVec 5)
  | srai  (rd rs1 : RegIdx) (shamt : BitVec 5)
  deriving DecidableEq, Repr

/-- The operation an instruction names. -/
def Instr.op : Instr → Operation
  | .add _ _ _ => .add
  | .sub _ _ _ => .sub
  | .sll _ _ _ => .sll
  | .slt _ _ _ => .slt
  | .sltu _ _ _ => .sltu
  | .xor _ _ _ => .xor
  | .srl _ _ _ => .srl
  | .sra _ _ _ => .sra
  | .or _ _ _ => .or
  | .and _ _ _ => .and
  | .addi _ _ _ => .addi
  | .slti _ _ _ => .slti
  | .sltiu _ _ _ => .sltiu
  | .xori _ _ _ => .xori
  | .ori _ _ _ => .ori
  | .andi _ _ _ => .andi
  | .slli _ _ _ => .slli
  | .srli _ _ _ => .srli
  | .srai _ _ _ => .srai

/-- The destination register, which every instruction has (R85). -/
def Instr.rd : Instr → RegIdx
  | .add rd _ _ | .sub rd _ _ | .sll rd _ _ | .slt rd _ _ | .sltu rd _ _ => rd
  | .xor rd _ _ | .srl rd _ _ | .sra rd _ _ | .or rd _ _ | .and rd _ _ => rd
  | .addi rd _ _ | .slti rd _ _ | .sltiu rd _ _ | .xori rd _ _ | .ori rd _ _ => rd
  | .andi rd _ _ | .slli rd _ _ | .srli rd _ _ | .srai rd _ _ => rd

/-- The first source register, which every instruction reads (R23, R82). -/
def Instr.rs1 : Instr → RegIdx
  | .add _ rs1 _ | .sub _ rs1 _ | .sll _ rs1 _ | .slt _ rs1 _ | .sltu _ rs1 _ => rs1
  | .xor _ rs1 _ | .srl _ rs1 _ | .sra _ rs1 _ | .or _ rs1 _ | .and _ rs1 _ => rs1
  | .addi _ rs1 _ | .slti _ rs1 _ | .sltiu _ rs1 _ | .xori _ rs1 _ | .ori _ rs1 _ => rs1
  | .andi _ rs1 _ | .slli _ rs1 _ | .srli _ rs1 _ | .srai _ rs1 _ => rs1

end Sys2Proof
end

