-- ==== Sys2Proof/WellFormed.lean ====
section
/-! DEFINITION. Which instructions an instruction word can carry: the register fields and the shift amount fit by
their types, so the one check is that a non-shift immediate is a sign-extended 12-bit field (30_encoding.md R56). -/

namespace Sys2Proof

/-- The immediate is the sign extension of its own low 12 bits, so its signed value lies in -2048..2047 (R56). -/
def immFits (imm : Word) : Bool :=
  (imm.setWidth 12).signExtend 32 == imm

/-- The instruction has an encoding. -/
def Instr.wellFormed : Instr → Bool
  | .add _ _ _ | .sub _ _ _ | .sll _ _ _ | .slt _ _ _ | .sltu _ _ _ => true
  | .xor _ _ _ | .srl _ _ _ | .sra _ _ _ | .or _ _ _ | .and _ _ _ => true
  | .addi _ _ imm | .slti _ _ imm | .sltiu _ _ imm => immFits imm
  | .xori _ _ imm | .ori _ _ imm | .andi _ _ imm => immFits imm
  | .slli _ _ _ | .srli _ _ _ | .srai _ _ _ => true

end Sys2Proof
end

