-- ==== Sys2Proof/Decode.lean ====
section
/-! DEFINITION. The field extractor, the dispatch truth table, the decoder built of the two, and the encoder
(30_encoding.md R52 to R72). -/

namespace Sys2Proof

/-! ## Constants of the encoding -/

/-- `OPCODE_OP` (R9, R58): register-register ALU operations. -/
def opcodeOp : BitVec 7 := 0b0110011#7

/-- `OPCODE_OP_IMM` (R9, R58): arithmetic-immediate operations. -/
def opcodeOpImm : BitVec 7 := 0b0010011#7

/-- The value this spec fixes for `ALT_FUNCT7` (R10): word bit 30 set, every other bit clear. -/
def altFunct7 : BitVec 7 := 0b0100000#7

/-! ## The field extractor -/

/-- `fmt` of R58: register form, immediate form, or neither. -/
inductive Format where
  | R | I | U
  deriving DecidableEq, Repr

/-- The outputs of the field extractor (R39, R59): every field is computed for every word, and `fmt` says which
of them are meaningful. -/
structure Fields where
  fmt    : Format
  opcode : BitVec 7
  rd     : RegIdx
  funct3 : BitVec 3
  rs1    : RegIdx
  rs2    : RegIdx
  funct7 : BitVec 7
  imm    : Word
  deriving DecidableEq, Repr

/-- Format selection "is by opcode value alone" (R58). -/
def formatOf (opcode : BitVec 7) : Format :=
  if opcode = opcodeOp then .R else if opcode = opcodeOpImm then .I else .U

/-- The sign-extended 12-bit immediate field of a word (R56). -/
def immField (w : Word) : Word :=
  (w.extractLsb' 20 12).signExtend 32

/-- The field extractor, total on every word (R53 to R57). -/
def extract (w : Word) : Fields where
  fmt    := formatOf (w.extractLsb' 0 7)
  opcode := w.extractLsb' 0 7
  rd     := w.extractLsb' 7 5
  funct3 := w.extractLsb' 12 3
  rs1    := w.extractLsb' 15 5
  rs2    := w.extractLsb' 20 5
  funct7 := w.extractLsb' 25 7
  imm    := immField w

/-! ## The dispatcher -/

/-- The column `funct7 = 0b0000000` of the R-type table (R61): every funct3 names an operation. -/
def baseColumn (funct3 : BitVec 3) : Operation :=
  match funct3 with
  | 0b000#3 => .add
  | 0b001#3 => .sll
  | 0b010#3 => .slt
  | 0b011#3 => .sltu
  | 0b100#3 => .xor
  | 0b101#3 => .srl
  | 0b110#3 => .or
  | _       => .and

/-- The column `funct7 = ALT_FUNCT7` of the R-type table (R61): SUB and SRA, every other cell unclassified. -/
def altColumn (funct3 : BitVec 3) : Option Operation :=
  match funct3 with
  | 0b000#3 => some .sub
  | 0b101#3 => some .sra
  | _       => none

/-- R-type dispatch by the pair of funct7 and funct3, both compared in full (R61, R62). -/
def dispatchR (alt funct7 : BitVec 7) (funct3 : BitVec 3) : Option Operation :=
  if funct7 = 0b0000000#7 then some (baseColumn funct3)
  else if funct7 = alt then altColumn funct3
  else none

/-- I-type dispatch by funct3, and for the shifts by the selector `hi = imm[11:5]` as well, compared in full
(R63, R64). -/
def dispatchI (alt hi : BitVec 7) (funct3 : BitVec 3) : Option Operation :=
  match funct3 with
  | 0b000#3 => some .addi
  | 0b010#3 => some .slti
  | 0b011#3 => some .sltiu
  | 0b100#3 => some .xori
  | 0b110#3 => some .ori
  | 0b001#3 => if hi = 0b0000000#7 then some .slli else none
  | 0b101#3 => if hi = 0b0000000#7 then some .srli else if hi = alt then some .srai else none
  | _       => some .andi

/-- The dispatch function in full (R65), with `ALT_FUNCT7` as an argument (R10); `none` is the spec's `NONE`. -/
def dispatchWith (alt : BitVec 7) (d : Fields) : Option Operation :=
  match d.fmt with
  | .R => dispatchR alt d.funct7 d.funct3
  | .I => dispatchI alt (d.imm.extractLsb' 5 7) d.funct3
  | .U => none

/-! ## The decoder -/

/-- The instruction of an operation and a word's fields: R-type takes `rs2`, I-type the immediate, and a shift
its low five bits `shamt = imm[4:0]` (R57, R59, R83). -/
def Operation.build (op : Operation) (d : Fields) : Instr :=
  match op with
  | .add   => .add d.rd d.rs1 d.rs2
  | .sub   => .sub d.rd d.rs1 d.rs2
  | .sll   => .sll d.rd d.rs1 d.rs2
  | .slt   => .slt d.rd d.rs1 d.rs2
  | .sltu  => .sltu d.rd d.rs1 d.rs2
  | .xor   => .xor d.rd d.rs1 d.rs2
  | .srl   => .srl d.rd d.rs1 d.rs2
  | .sra   => .sra d.rd d.rs1 d.rs2
  | .or    => .or d.rd d.rs1 d.rs2
  | .and   => .and d.rd d.rs1 d.rs2
  | .addi  => .addi d.rd d.rs1 d.imm
  | .slti  => .slti d.rd d.rs1 d.imm
  | .sltiu => .sltiu d.rd d.rs1 d.imm
  | .xori  => .xori d.rd d.rs1 d.imm
  | .ori   => .ori d.rd d.rs1 d.imm
  | .andi  => .andi d.rd d.rs1 d.imm
  | .slli  => .slli d.rd d.rs1 (d.imm.extractLsb' 0 5)
  | .srli  => .srli d.rd d.rs1 (d.imm.extractLsb' 0 5)
  | .srai  => .srai d.rd d.rs1 (d.imm.extractLsb' 0 5)

/-- What a word is: exactly one of a matched operation and "unclassified" (R67), the latter carrying the whole
word (R124). -/
inductive Decoded where
  | classified (i : Instr)
  | unclassified (w : Word)
  deriving DecidableEq, Repr

/-- The decoder for a given `ALT_FUNCT7`: extraction, then dispatch. Total on every word (R53). -/
def decodeWith (alt : BitVec 7) (w : Word) : Decoded :=
  match dispatchWith alt (extract w) with
  | some op => .classified (op.build (extract w))
  | none    => .unclassified w

/-- The decoder with the spec's `ALT_FUNCT7` (R10). -/
def decode (w : Word) : Decoded := decodeWith altFunct7 w

/-- The word is unclassified: `dispatch(decode(word)) = NONE` (R66). -/
def unclassifiedWith (alt : BitVec 7) (w : Word) : Bool :=
  (dispatchWith alt (extract w)).isNone

/-- The instruction a decoding holds, if it holds one. -/
def Decoded.instr? : Decoded → Option Instr
  | .classified i   => some i
  | .unclassified _ => none

/-! ## Words from bytes: the environment's part (R12, R44) -/

/-- The word an environment assembles from four bytes, `b0` at the lowest address. -/
def wordOfBytes (order : Config.FetchByteOrder) (b0 b1 b2 b3 : Byte) : Word :=
  match order with
  | .little => b3 ++ b2 ++ b1 ++ b0
  | .big    => b0 ++ b1 ++ b2 ++ b3

/-- Why no instruction is read from a list of bytes. -/
inductive Rejection where
  /-- Four bytes are there, but their word is outside the supported set (R66). -/
  | unclassified (w : Word)
  /-- Fewer than the four bytes of one word are left (R52). -/
  | truncated (left : Nat)
  deriving DecidableEq, Repr

/-- Decoding a byte image of an environment: one instruction and the rest of the bytes. -/
def decodeBytes (order : Config.FetchByteOrder) : List Byte → Except Rejection (Instr × List Byte)
  | b0 :: b1 :: b2 :: b3 :: rest =>
    match decode (wordOfBytes order b0 b1 b2 b3) with
    | .classified i   => .ok (i, rest)
    | .unclassified w => .error (.unclassified w)
  | short => .error (.truncated short.length)

/-- The word whose low `nbits` bits are those of `w`, every bit above them 0. -/
def tableWord (nbits w : Nat) : Word := BitVec.ofNat 32 (w % 2 ^ nbits)

/-- The instruction the decoder reads from a word numbered as spec/opcode_table.json numbers it: bit 0 is the
least significant (R13). The core receives the word whole, so no byte order enters (R43, R44). -/
def decodeTableWord (nbits w : Nat) : Option Instr := (decode (tableWord nbits w)).instr?

/-! ## The encoder (R72) -/

/-- The R-type layout of R60. -/
def encR (funct7 : BitVec 7) (rs2 rs1 : RegIdx) (funct3 : BitVec 3) (rd : RegIdx) : Word :=
  funct7 ++ rs2 ++ rs1 ++ funct3 ++ rd ++ opcodeOp

/-- The I-type layout of R60. -/
def encI (imm12 : BitVec 12) (rs1 : RegIdx) (funct3 : BitVec 3) (rd : RegIdx) : Word :=
  imm12 ++ rs1 ++ funct3 ++ rd ++ opcodeOpImm

/-- The I-type shift layout of R60: the selector above the shift amount. -/
def encShift (sel7 : BitVec 7) (shamt : BitVec 5) (rs1 : RegIdx) (funct3 : BitVec 3) (rd : RegIdx) : Word :=
  encI (sel7 ++ shamt) rs1 funct3 rd

/-- The word of an instruction for a given `ALT_FUNCT7`, an immediate as its low 12 bits (R72, R74). -/
def encodeWith (alt : BitVec 7) : Instr → Word
  | .add rd rs1 rs2    => encR 0b0000000#7 rs2 rs1 0b000#3 rd
  | .sub rd rs1 rs2    => encR alt rs2 rs1 0b000#3 rd
  | .sll rd rs1 rs2    => encR 0b0000000#7 rs2 rs1 0b001#3 rd
  | .slt rd rs1 rs2    => encR 0b0000000#7 rs2 rs1 0b010#3 rd
  | .sltu rd rs1 rs2   => encR 0b0000000#7 rs2 rs1 0b011#3 rd
  | .xor rd rs1 rs2    => encR 0b0000000#7 rs2 rs1 0b100#3 rd
  | .srl rd rs1 rs2    => encR 0b0000000#7 rs2 rs1 0b101#3 rd
  | .sra rd rs1 rs2    => encR alt rs2 rs1 0b101#3 rd
  | .or rd rs1 rs2     => encR 0b0000000#7 rs2 rs1 0b110#3 rd
  | .and rd rs1 rs2    => encR 0b0000000#7 rs2 rs1 0b111#3 rd
  | .addi rd rs1 imm   => encI (imm.setWidth 12) rs1 0b000#3 rd
  | .slti rd rs1 imm   => encI (imm.setWidth 12) rs1 0b010#3 rd
  | .sltiu rd rs1 imm  => encI (imm.setWidth 12) rs1 0b011#3 rd
  | .xori rd rs1 imm   => encI (imm.setWidth 12) rs1 0b100#3 rd
  | .ori rd rs1 imm    => encI (imm.setWidth 12) rs1 0b110#3 rd
  | .andi rd rs1 imm   => encI (imm.setWidth 12) rs1 0b111#3 rd
  | .slli rd rs1 shamt => encShift 0b0000000#7 shamt rs1 0b001#3 rd
  | .srli rd rs1 shamt => encShift 0b0000000#7 shamt rs1 0b101#3 rd
  | .srai rd rs1 shamt => encShift alt shamt rs1 0b101#3 rd

/-- The words of an instruction, with the spec's `ALT_FUNCT7`. -/
def encode (i : Instr) : Word := encodeWith altFunct7 i

/-! ## The opcode map (R71) -/

/-- The mask and match of an operation, the rows of R71 and of spec/opcode_table.json. -/
def opcodeRow : Operation → Word × Word
  | .add   => (0xFE00707F#32, 0x00000033#32)
  | .sub   => (0xFE00707F#32, 0x40000033#32)
  | .sll   => (0xFE00707F#32, 0x00001033#32)
  | .slt   => (0xFE00707F#32, 0x00002033#32)
  | .sltu  => (0xFE00707F#32, 0x00003033#32)
  | .xor   => (0xFE00707F#32, 0x00004033#32)
  | .srl   => (0xFE00707F#32, 0x00005033#32)
  | .sra   => (0xFE00707F#32, 0x40005033#32)
  | .or    => (0xFE00707F#32, 0x00006033#32)
  | .and   => (0xFE00707F#32, 0x00007033#32)
  | .addi  => (0x0000707F#32, 0x00000013#32)
  | .slti  => (0x0000707F#32, 0x00002013#32)
  | .sltiu => (0x0000707F#32, 0x00003013#32)
  | .xori  => (0x0000707F#32, 0x00004013#32)
  | .ori   => (0x0000707F#32, 0x00006013#32)
  | .andi  => (0x0000707F#32, 0x00007013#32)
  | .slli  => (0xFE00707F#32, 0x00001013#32)
  | .srli  => (0xFE00707F#32, 0x00005013#32)
  | .srai  => (0xFE00707F#32, 0x40005013#32)

/-- The word is the operation's: `word & mask(OP) == match(OP)` (R71). -/
def matchesRow (w : Word) (op : Operation) : Bool :=
  (w &&& (opcodeRow op).1) == (opcodeRow op).2

end Sys2Proof
end

