-- ==== Sys2Proof/Machine/State.lean ====
section
/-! DEFINITION. The state of the core (10_state.md R20 to R36), the input values of the coming cycles
(10_state.md R37), and the state after reset (70_reset_and_hazards.md R140). -/

namespace Sys2Proof.Machine

/-- The register file: the 31 stored words of x1..x31. x0 has no storage (R26, R36), so no state can hold a
non-zero x0 (log entry 11). -/
structure RegFile where
  /-- Entry `k` is x(k+1). -/
  words : Vector Word 31
  deriving DecidableEq, Repr

/-- Every register 0, the register file of the reset state (R140). -/
def RegFile.zero : RegFile := ⟨Vector.replicate 31 0#32⟩

/-- What the environment drives on the input ports during one clock cycle (R37); the rising edge that ends the
cycle acts on it. -/
structure Cycle where
  /-- Synchronous active-high reset (R141). -/
  rst : Bool
  /-- `instr` is a word to execute at this edge (R38). -/
  instrValid : Bool
  /-- The instruction word. -/
  instr : Word
  /-- The observation read address (R29). -/
  dbgRaddr : RegIdx
  deriving DecidableEq, Repr

/-- The error conditions of the core, exactly two (R122). -/
inductive Fault where
  /-- `UnclassifiedInstruction` (R124): raised by `raiseUnclassified` when a word outside the 19 operations is
  accepted under the policy `TRAP`, with the registers unchanged (R91). Safe: under `IGNORE` the machine goes on. -/
  | unclassifiedInstruction (w : Word)
  /-- `InvalidRegisterIndex` (R125): raised only by the accessors `RegFile.readChecked` and
  `RegFile.writeChecked`, never by a step (R138). Safe: no port can present such an index (R30). -/
  | invalidRegisterIndex (i : Nat)
  deriving DecidableEq, Repr

/-- Why an instruction would have no meaning in the model. -/
inductive Refusal where
  /-- Raised by an arm of `exec` whose instruction has no meaning yet; no arm of this model does. Safe. -/
  | notModelled (mnemonic : String)
  deriving DecidableEq, Repr

/-- The machine. `regs` is the core's whole architectural state (R36); the other two fields are the model's own:
what the environment will drive, and the build parameters. -/
structure State where
  /-- x1..x31. -/
  regs : RegFile
  /-- The input values of the coming cycles, the next one first; past its end the environment is idle
  (DESIGN CHOICE, log entry 2). -/
  inputs : List Cycle
  /-- The build parameters, which no step changes (DESIGN CHOICE, log entry 1). -/
  params : Config.Params
  deriving DecidableEq, Repr

/-- The parameters at the spec's defaults (R10, R11). -/
def defaultParams : Config.Params := { altFunct7 := Sys2Proof.altFunct7, policy := .ignore }

/-- The machine right after reset: every register 0 (R140), the environment presenting nothing yet, the
parameters at their defaults. -/
def State.reset : State := { regs := RegFile.zero, inputs := [], params := defaultParams }

end Sys2Proof.Machine
end

