-- ==== Sys2Proof/Machine/Ops.lean ====
section
/-! DEFINITION. The named operations over the register file and the input ports, and the one operation for the
outcome of an unclassified word (10_state.md R21, R22, R28, R30; 40_core_step.md R90, R91). -/

namespace Sys2Proof.Machine

/-! ## The register file -/

/-- `x[i]`: "if `index == 0`, always returns 0" (R21). -/
def RegFile.read (r : RegFile) (i : RegIdx) : Word :=
  if i = 0#5 then 0#32 else r.words[i.toNat - 1]'(by have := i.isLt; omega)

/-- `x[i] <- v`: "if `index == 0`, the write is a no-op"; no other register changes (R22). -/
def RegFile.write (r : RegFile) (i : RegIdx) (v : Word) : RegFile :=
  if i = 0#5 then r else ⟨r.words.set (i.toNat - 1) v (by have := i.isLt; omega)⟩

/-- The write port with its enable `wb_en` (R28). -/
def RegFile.writePort (r : RegFile) (en : Bool) (i : RegIdx) (v : Word) : RegFile :=
  if en then r.write i v else r

/-- The read accessor over an index wider than 5 bits: above 31 it returns `InvalidRegisterIndex` (R30, R125). -/
def RegFile.readChecked (r : RegFile) (i : Nat) : Except Fault Word :=
  if i < 32 then .ok (r.read (BitVec.ofNat 5 i)) else .error (.invalidRegisterIndex i)

/-- The write accessor over an index wider than 5 bits: above 31 it fails "before any mutation" (R125, R131). -/
def RegFile.writeChecked (r : RegFile) (i : Nat) (v : Word) : Except Fault RegFile :=
  if i < 32 then .ok (r.write (BitVec.ofNat 5 i) v) else .error (.invalidRegisterIndex i)

/-- Register `i` of a state. -/
def State.x (s : State) (i : RegIdx) : Word := s.regs.read i

/-- The state with register `i` written. -/
def State.writeReg (s : State) (i : RegIdx) (v : Word) : State := { s with regs := s.regs.write i v }

/-- Write-back: "exactly one `RegisterFile.write(rd, result)` call per successfully matched operation" (R85). -/
def writeBack (rd : RegIdx) (result : Word) (s : State) : Host.Outcome State Fault Refusal :=
  .next (s.writeReg rd result)

/-! ## Reset and the unclassified outcome -/

/-- The effect of a rising edge with `rst = 1`: `REG[1..31] := 0` (R141). -/
def State.clearRegs (s : State) : State := { s with regs := RegFile.zero }

/-- The outcome of an accepted unclassified word: no register is read or written (R90). Under `IGNORE` the
environment goes on to its next word; under `TRAP` the run stops with the fault recorded (R91). The core saves
nothing and transfers control nowhere (R129), so this is all of "taking the exception". -/
def raiseUnclassified (w : Word) (s : State) : Host.Outcome State Fault Refusal :=
  match s.params.policy with
  | .ignore => .next s
  | .trap   => .fault (.unclassifiedInstruction w)

/-! ## The input ports -/

/-- An idle cycle: no reset, no word (R95). DESIGN CHOICE: its `instr` and `dbg_raddr`, which no edge acts on,
are 0 (log entry 2). -/
def Cycle.idle : Cycle := { rst := false, instrValid := false, instr := 0#32, dbgRaddr := 0#5 }

/-- A cycle in which the environment presents one word to be accepted (R38). -/
def Cycle.present (w : Word) : Cycle := { rst := false, instrValid := true, instr := w, dbgRaddr := 0#5 }

/-- A rising edge ending this cycle accepts its word (R38). -/
def Cycle.accepts (c : Cycle) : Bool := c.instrValid && !c.rst

/-- The input values of the present cycle. -/
def State.presented (s : State) : Cycle :=
  match s.inputs with
  | []     => Cycle.idle
  | c :: _ => c

/-- The state with the present cycle over: the environment moves to its next input values. -/
def State.advance (s : State) : State := { s with inputs := s.inputs.tail }

end Sys2Proof.Machine
end

