-- ==== Sys2Proof/Machine/Operands.lean ====
section
/-! DEFINITION. The operand forms: operand A, the three forms of operand B, and the masked shift amount
(40_core_step.md R82, R83; 30_encoding.md R57; 41_alu_register.md R97). -/

namespace Sys2Proof.Machine

/-- Operand A is `x[rs1]` for every operation (R82). -/
def operandA (rs1 : RegIdx) (s : State) : Word := s.x rs1

/-- Operand B of a register form is `x[rs2]` (R83). -/
def operandB (rs2 : RegIdx) (s : State) : Word := s.x rs2

/-- Operand B of an immediate form is the immediate "already sign-extended by the Decoder" (R83). -/
def operandImm (imm : Word) : Word := imm

/-- Operand B of a shift-immediate form: its shift amount `word[24:20]`; the selector bits above it never
affect the amount (R57, R120). -/
def operandShamt (shamt : BitVec 5) : Word := shamt.setWidth 32

/-- The shift amount of operand B: "low 5 bits only" (R97). -/
def shiftAmount (b : Word) : Nat := (b.extractLsb' 0 5).toNat

end Sys2Proof.Machine
end

