-- ==== Sys2Proof/Machine/Flags.lean ====
section
/-! DEFINITION. The core has no flags and no condition codes (10_state.md R32). The comparisons, which deliver
"the value 0 or 1 in `x[rd]`, not in a flag", stand here. -/

namespace Sys2Proof.Machine

/-- `signed(a) < signed(b)`, two's complement (00_scope.md R14, R16). -/
def lessSigned (a b : Word) : Bool := decide (a.toInt < b.toInt)

/-- `a < b` unsigned (00_scope.md R16). -/
def lessUnsigned (a b : Word) : Bool := decide (a.toNat < b.toNat)

/-- A comparison's result as a register value: 1 or 0 (R101, R102). -/
def truthWord (c : Bool) : Word := if c then 1#32 else 0#32

end Sys2Proof.Machine
end

