-- ==== Sys2Proof/Machine/Alu.lean ====
section
/-! DEFINITION. The ALU: "Pure functions of two 32-bit operands" (41_alu_register.md R96 to R108). -/

namespace Sys2Proof.Machine

/-- `(a + b) mod 2^32` (R98). -/
def aluAdd (a b : Word) : Word := a + b

/-- `(a - b) mod 2^32` (R99). -/
def aluSub (a b : Word) : Word := a - b

/-- `(a << b[4:0])[31:0]` (R100). -/
def aluSll (a b : Word) : Word := a <<< shiftAmount b

/-- 1 if `a < b` signed, else 0 (R101). -/
def aluSlt (a b : Word) : Word := truthWord (lessSigned a b)

/-- 1 if `a < b` unsigned, else 0 (R102). -/
def aluSltu (a b : Word) : Word := truthWord (lessUnsigned a b)

/-- `a ^ b` (R103). -/
def aluXor (a b : Word) : Word := a ^^^ b

/-- `a >>u b[4:0]`, zero-filled (R104). -/
def aluSrl (a b : Word) : Word := a >>> shiftAmount b

/-- `a >>s b[4:0]`, filled with `a[31]` (R105). -/
def aluSra (a b : Word) : Word := a.sshiftRight (shiftAmount b)

/-- `a | b` (R106). -/
def aluOr (a b : Word) : Word := a ||| b

/-- `a & b` (R107). -/
def aluAnd (a b : Word) : Word := a &&& b

end Sys2Proof.Machine
end

