-- ==== Sys2Proof/Machine/AluImmediate.lean ====
section
/-! DEFINITION. The meanings of the nine register-immediate instructions (42_alu_immediate.md R111 to R119): the
register form's rule with the immediate "substituted for `rs2`" (R110). -/

namespace Sys2Proof.Machine

/-- ADDI (R111). -/
def execAddi (rd rs1 : RegIdx) (imm : Word) (s : State) : Host.Outcome State Fault Refusal :=
  writeBack rd (aluAdd (operandA rs1 s) (operandImm imm)) s

/-- SLTI (R112). -/
def execSlti (rd rs1 : RegIdx) (imm : Word) (s : State) : Host.Outcome State Fault Refusal :=
  writeBack rd (aluSlt (operandA rs1 s) (operandImm imm)) s

/-- SLTIU (R113). -/
def execSltiu (rd rs1 : RegIdx) (imm : Word) (s : State) : Host.Outcome State Fault Refusal :=
  writeBack rd (aluSltu (operandA rs1 s) (operandImm imm)) s

/-- XORI (R114). -/
def execXori (rd rs1 : RegIdx) (imm : Word) (s : State) : Host.Outcome State Fault Refusal :=
  writeBack rd (aluXor (operandA rs1 s) (operandImm imm)) s

/-- ORI (R115). -/
def execOri (rd rs1 : RegIdx) (imm : Word) (s : State) : Host.Outcome State Fault Refusal :=
  writeBack rd (aluOr (operandA rs1 s) (operandImm imm)) s

/-- ANDI (R116). -/
def execAndi (rd rs1 : RegIdx) (imm : Word) (s : State) : Host.Outcome State Fault Refusal :=
  writeBack rd (aluAnd (operandA rs1 s) (operandImm imm)) s

/-- SLLI (R117). -/
def execSlli (rd rs1 : RegIdx) (shamt : BitVec 5) (s : State) : Host.Outcome State Fault Refusal :=
  writeBack rd (aluSll (operandA rs1 s) (operandShamt shamt)) s

/-- SRLI (R118). -/
def execSrli (rd rs1 : RegIdx) (shamt : BitVec 5) (s : State) : Host.Outcome State Fault Refusal :=
  writeBack rd (aluSrl (operandA rs1 s) (operandShamt shamt)) s

/-- SRAI (R119). -/
def execSrai (rd rs1 : RegIdx) (shamt : BitVec 5) (s : State) : Host.Outcome State Fault Refusal :=
  writeBack rd (aluSra (operandA rs1 s) (operandShamt shamt)) s

end Sys2Proof.Machine
end

