-- ==== Sys2Proof/Machine/AluRegister.lean ====
section
/-! DEFINITION. The meanings of the ten register-register instructions (41_alu_register.md R98 to R107): read both
operands, compute, write `x[rd]` once. -/

namespace Sys2Proof.Machine

/-- ADD (R98). -/
def execAdd (rd rs1 rs2 : RegIdx) (s : State) : Host.Outcome State Fault Refusal :=
  writeBack rd (aluAdd (operandA rs1 s) (operandB rs2 s)) s

/-- SUB (R99). -/
def execSub (rd rs1 rs2 : RegIdx) (s : State) : Host.Outcome State Fault Refusal :=
  writeBack rd (aluSub (operandA rs1 s) (operandB rs2 s)) s

/-- SLL (R100). -/
def execSll (rd rs1 rs2 : RegIdx) (s : State) : Host.Outcome State Fault Refusal :=
  writeBack rd (aluSll (operandA rs1 s) (operandB rs2 s)) s

/-- SLT (R101). -/
def execSlt (rd rs1 rs2 : RegIdx) (s : State) : Host.Outcome State Fault Refusal :=
  writeBack rd (aluSlt (operandA rs1 s) (operandB rs2 s)) s

/-- SLTU (R102). -/
def execSltu (rd rs1 rs2 : RegIdx) (s : State) : Host.Outcome State Fault Refusal :=
  writeBack rd (aluSltu (operandA rs1 s) (operandB rs2 s)) s

/-- XOR (R103). -/
def execXor (rd rs1 rs2 : RegIdx) (s : State) : Host.Outcome State Fault Refusal :=
  writeBack rd (aluXor (operandA rs1 s) (operandB rs2 s)) s

/-- SRL (R104). -/
def execSrl (rd rs1 rs2 : RegIdx) (s : State) : Host.Outcome State Fault Refusal :=
  writeBack rd (aluSrl (operandA rs1 s) (operandB rs2 s)) s

/-- SRA (R105). -/
def execSra (rd rs1 rs2 : RegIdx) (s : State) : Host.Outcome State Fault Refusal :=
  writeBack rd (aluSra (operandA rs1 s) (operandB rs2 s)) s

/-- OR (R106). -/
def execOr (rd rs1 rs2 : RegIdx) (s : State) : Host.Outcome State Fault Refusal :=
  writeBack rd (aluOr (operandA rs1 s) (operandB rs2 s)) s

/-- AND (R107). -/
def execAnd (rd rs1 rs2 : RegIdx) (s : State) : Host.Outcome State Fault Refusal :=
  writeBack rd (aluAnd (operandA rs1 s) (operandB rs2 s)) s

end Sys2Proof.Machine
end

