-- ==== Sys2Proof/Machine/Clock.lean ====
section
/-! DEFINITION. What a rising clock edge does with the input values of its cycle, and the two combinational
outputs (10_state.md R29, R38; 40_core_step.md R89, R95; 60_exceptions.md R126; 70_reset_and_hazards.md R141). -/

namespace Sys2Proof.Machine

/-- Accepting one word: decode it; execute it if it is classified, else take the unclassified outcome (R89, R90). -/
def acceptWord (w : Word) (s : State) : Host.Outcome State Fault Refusal :=
  match decodeWith s.params.altFunct7 w with
  | .classified i   => exec i s
  | .unclassified u => raiseUnclassified u s

/-- A rising edge. Reset has priority over a word presented in the same cycle (R141); with neither reset nor a
valid word nothing changes (R95). -/
def clockEdge (c : Cycle) (s : State) : Host.Outcome State Fault Refusal :=
  if c.rst then .next s.clearRegs
  else if c.instrValid then acceptWord c.instr s
  else .next s

/-- The `illegal` output in the present cycle:
`instr_valid & ~rst & (dispatch(decode(instr)) == NONE)` (R126). -/
def State.illegal (s : State) : Bool :=
  s.presented.instrValid && !s.presented.rst && unclassifiedWith s.params.altFunct7 s.presented.instr

/-- The `dbg_rdata` output in the present cycle: `x[dbg_raddr]`, from the values held (R29, R147). -/
def State.dbgRdata (s : State) : Word := s.x s.presented.dbgRaddr

end Sys2Proof.Machine
end

