-- ==== Sys2Proof/Machine/Step.lean ====
section
/-! DEFINITION. One step of the machine is one rising clock edge (70_reset_and_hazards.md R146). -/

namespace Sys2Proof.Machine

/-- One step: the edge acts on the present cycle's input values, and the environment moves to the next cycle's. -/
def step (s : State) : Host.Outcome State Fault Refusal :=
  clockEdge s.presented s.advance

/-- The state in which the environment presents the given word in the present cycle, and whatever it was to
drive before in the cycles after it (log entry 3). -/
def State.withFetchWord (s : State) (nbits w : Nat) : State :=
  { s with inputs := Cycle.present (tableWord nbits w) :: s.inputs }

end Sys2Proof.Machine
end

