-- ==== Sys2Proof/Machine/Assembler.lean ====
section
/-! DEFINITION. Assembler spellings and pseudo-instructions (10_state.md R25; 30_encoding.md R73 to R75). They
"define spellings, not behaviour": nothing in `step` uses this file (log entry 12). -/

namespace Sys2Proof.Machine

/-! ## Names of registers and operations -/

/-- The ABI names of x0..x31 in order (R25). -/
def abiNames : List String :=
  ["zero", "ra", "sp", "gp", "tp", "t0", "t1", "t2"] ++
  ["s0", "s1", "a0", "a1", "a2", "a3", "a4", "a5"] ++
  ["a6", "a7", "s2", "s3", "s4", "s5", "s6", "s7"] ++
  ["s8", "s9", "s10", "s11", "t3", "t4", "t5", "t6"]

/-- The index names `x0`..`x31` in order (R19, R25). -/
def indexNames : List String :=
  ["x0", "x1", "x2", "x3", "x4", "x5", "x6", "x7"] ++
  ["x8", "x9", "x10", "x11", "x12", "x13", "x14", "x15"] ++
  ["x16", "x17", "x18", "x19", "x20", "x21", "x22", "x23"] ++
  ["x24", "x25", "x26", "x27", "x28", "x29", "x30", "x31"]

/-- The register a name stands for: its index name, its ABI name, or `fp` for x8 (R25, R74). -/
def registerOfName (name : String) : Option RegIdx :=
  if name = "fp" then some 8#5
  else ((indexNames.idxOf? name).or (abiNames.idxOf? name)).map (BitVec.ofNat 5)

/-- The lower-case mnemonic (R73). -/
def spellingOf : Operation → String
  | .add => "add"
  | .sub => "sub"
  | .sll => "sll"
  | .slt => "slt"
  | .sltu => "sltu"
  | .xor => "xor"
  | .srl => "srl"
  | .sra => "sra"
  | .or => "or"
  | .and => "and"
  | .addi => "addi"
  | .slti => "slti"
  | .sltiu => "sltiu"
  | .xori => "xori"
  | .ori => "ori"
  | .andi => "andi"
  | .slli => "slli"
  | .srli => "srli"
  | .srai => "srai"

/-! ## Lines -/

/-- An operand as it is written: a register, or an integer (R74). -/
inductive AsmOperand where
  | reg (i : RegIdx)
  | int (n : Int)
  deriving DecidableEq, Repr

/-- A line of a program: an operation with its operands, destination first (R73), or a bare word, which is how an
unclassified word is written (R74). -/
inductive AsmLine where
  | op (o : Operation) (operands : List AsmOperand)
  | word (w : Word)
  deriving DecidableEq, Repr

/-- An immediate "in -2048..2047"; any other integer is rejected (R74). -/
def immOfInt (n : Int) : Option Word :=
  if -2048 ≤ n ∧ n ≤ 2047 then some (BitVec.ofInt 32 n) else none

/-- "`shamt` is 0..31; an assembler rejects other values" (R74). -/
def shamtOfInt (n : Int) : Option (BitVec 5) :=
  if 0 ≤ n ∧ n ≤ 31 then some (BitVec.ofInt 5 n) else none

/-- The instruction of a line: three operands of the shape its operation takes (R73), or none. -/
def assemble : AsmLine → Option Instr
  | .op .add   [.reg rd, .reg a, .reg b] => some (.add rd a b)
  | .op .sub   [.reg rd, .reg a, .reg b] => some (.sub rd a b)
  | .op .sll   [.reg rd, .reg a, .reg b] => some (.sll rd a b)
  | .op .slt   [.reg rd, .reg a, .reg b] => some (.slt rd a b)
  | .op .sltu  [.reg rd, .reg a, .reg b] => some (.sltu rd a b)
  | .op .xor   [.reg rd, .reg a, .reg b] => some (.xor rd a b)
  | .op .srl   [.reg rd, .reg a, .reg b] => some (.srl rd a b)
  | .op .sra   [.reg rd, .reg a, .reg b] => some (.sra rd a b)
  | .op .or    [.reg rd, .reg a, .reg b] => some (.or rd a b)
  | .op .and   [.reg rd, .reg a, .reg b] => some (.and rd a b)
  | .op .addi  [.reg rd, .reg a, .int n] => (immOfInt n).map (.addi rd a)
  | .op .slti  [.reg rd, .reg a, .int n] => (immOfInt n).map (.slti rd a)
  | .op .sltiu [.reg rd, .reg a, .int n] => (immOfInt n).map (.sltiu rd a)
  | .op .xori  [.reg rd, .reg a, .int n] => (immOfInt n).map (.xori rd a)
  | .op .ori   [.reg rd, .reg a, .int n] => (immOfInt n).map (.ori rd a)
  | .op .andi  [.reg rd, .reg a, .int n] => (immOfInt n).map (.andi rd a)
  | .op .slli  [.reg rd, .reg a, .int n] => (shamtOfInt n).map (.slli rd a)
  | .op .srli  [.reg rd, .reg a, .int n] => (shamtOfInt n).map (.srli rd a)
  | .op .srai  [.reg rd, .reg a, .int n] => (shamtOfInt n).map (.srai rd a)
  | _ => none

/-- The word of a line: the encoding of its instruction, or the bare word. -/
def assembleWord : AsmLine → Option Word
  | .word w => some w
  | line    => (assemble line).map encode

/-- The operands of an instruction as they are written: immediates as signed integers, `sltiu`'s too (R74). -/
def operandsOf : Instr → List AsmOperand
  | .add rd a b | .sub rd a b | .sll rd a b | .slt rd a b | .sltu rd a b => [.reg rd, .reg a, .reg b]
  | .xor rd a b | .srl rd a b | .sra rd a b | .or rd a b | .and rd a b => [.reg rd, .reg a, .reg b]
  | .addi rd a imm | .slti rd a imm | .sltiu rd a imm => [.reg rd, .reg a, .int imm.toInt]
  | .xori rd a imm | .ori rd a imm | .andi rd a imm => [.reg rd, .reg a, .int imm.toInt]
  | .slli rd a k | .srli rd a k | .srai rd a k => [.reg rd, .reg a, .int k.toNat]

/-- The line of an instruction. -/
def disassemble (i : Instr) : AsmLine := .op i.op (operandsOf i)

/-- The line of a word: its instruction's, or the bare word where it is unclassified (R74). -/
def disassembleWord (w : Word) : AsmLine :=
  match decode w with
  | .classified i   => disassemble i
  | .unclassified u => .word u

/-! ## Pseudo-instructions whose expansion lies in the 19 operations (R75) -/

/-- The pseudo-instructions of R75 as they are written; `li`'s immediate is an integer, of which R75 admits
-2048..2047 (log entry 12). -/
inductive Pseudo where
  | nop
  | li (rd : RegIdx) (n : Int)
  | mv (rd rs : RegIdx)
  | not (rd rs : RegIdx)
  | neg (rd rs : RegIdx)
  | seqz (rd rs : RegIdx)
  | snez (rd rs : RegIdx)
  | sltz (rd rs : RegIdx)
  | sgtz (rd rs : RegIdx)
  | zextB (rd rs : RegIdx)
  deriving DecidableEq, Repr

/-- The expansion column of R75. None for a `li` "with a large immediate", which needs other opcodes and is "not
available" in this core. -/
def Pseudo.expand : Pseudo → Option Instr
  | .nop         => some (.addi 0#5 0#5 0#32)
  | .li rd n     => (immOfInt n).map (.addi rd 0#5)
  | .mv rd rs    => some (.addi rd rs 0#32)
  | .not rd rs   => some (.xori rd rs 0xFFFFFFFF#32)
  | .neg rd rs   => some (.sub rd 0#5 rs)
  | .seqz rd rs  => some (.sltiu rd rs 1#32)
  | .snez rd rs  => some (.sltu rd 0#5 rs)
  | .sltz rd rs  => some (.slt rd rs 0#5)
  | .sgtz rd rs  => some (.slt rd 0#5 rs)
  | .zextB rd rs => some (.andi rd rs 255#32)

end Sys2Proof.Machine
end

