-- ==== Sys2Proof/Machine/Datapath.lean ====
section
/-! DEFINITION. The block as the spec's four sub-blocks wire it (10_state.md R39): field extractor, dispatcher, ALU
with its function select, register-file ports; and the step of one word as the spec writes it (40_core_step.md
R89). `step` does not use this file: a statement says that the machine agrees with it. -/

namespace Sys2Proof.Machine

/-- The function select of the ALU (R84). -/
inductive AluFn where
  | add | sub | sll | slt | sltu | xor | srl | sra | or | and
  deriving DecidableEq, Repr

/-- Operation to ALU function: an I-type operation uses its register form's (R84). -/
def aluFnOf : Operation → AluFn
  | .add | .addi   => .add
  | .sub           => .sub
  | .sll | .slli   => .sll
  | .slt | .slti   => .slt
  | .sltu | .sltiu => .sltu
  | .xor | .xori   => .xor
  | .srl | .srli   => .srl
  | .sra | .srai   => .sra
  | .or | .ori     => .or
  | .and | .andi   => .and

/-- The ALU block: two operands and a function select (R39). -/
def alu (f : AluFn) (a b : Word) : Word :=
  match f with
  | .add  => aluAdd a b
  | .sub  => aluSub a b
  | .sll  => aluSll a b
  | .slt  => aluSlt a b
  | .sltu => aluSltu a b
  | .xor  => aluXor a b
  | .srl  => aluSrl a b
  | .sra  => aluSra a b
  | .or   => aluOr a b
  | .and  => aluAnd a b

/-- The outcomes of a step, exactly two and never merged (R91, R138). -/
inductive WordOutcome where
  /-- A matched operation, and the register file after it. -/
  | executed (r : RegFile)
  /-- The word is outside the supported set; the register file is unchanged. -/
  | unclassified (w : Word)
  deriving DecidableEq, Repr

/-- The outcome codes of R139 (the accessor's failure is code 2, `Fault.code`). -/
def WordOutcome.code : WordOutcome → Nat
  | .executed _     => 0
  | .unclassified _ => 1

/-- The codes of the two error conditions (R124, R125, R139). -/
def Fault.code : Fault → Nat
  | .unclassifiedInstruction _ => 1
  | .invalidRegisterIndex _    => 2

/-- The step function of R89, in the spec's own stages. For a shift-immediate word operand B is the whole
immediate, selector bits included; the ALU masks it (R120). -/
def stepWord (alt : BitVec 7) (r : RegFile) (w : Word) : WordOutcome :=
  let d := extract w
  match dispatchWith alt d with
  | none => .unclassified w
  | some op =>
    let a := r.read d.rs1
    let b := if d.fmt = .R then r.read d.rs2 else d.imm
    .executed (r.writePort true d.rd (alu (aluFnOf op) a b))

/-- The register file after a word: an unclassified word changes nothing (R90). -/
def regsAfterWord (alt : BitVec 7) (r : RegFile) (w : Word) : RegFile :=
  match stepWord alt r w with
  | .executed r'    => r'
  | .unclassified _ => r

end Sys2Proof.Machine
end

