-- ==== Sys2Proof/Safety.lean ====
section
/-! DEFINITION. What counts as a safe run, and the vocabulary the statements use: what a step may change, a cycle
that is clean, and the register file a list of cycles leaves (20_memory.md R48, 60_exceptions.md R138). -/

namespace Sys2Proof.Machine

/-- An outcome is a next state. -/
def goesOn (o : Host.Outcome State Fault Refusal) : Prop := ∃ t, o = .next t

/-- From `s` to `t` register `rd` took the value `v` (x0 discards it) and nothing else changed: no other register,
no input to come, no parameter. These are all of a state, so this is the frame of an instruction (R22, R85). -/
structure OnlyWrites (rd : RegIdx) (v : Word) (s t : State) : Prop where
  /-- The destination holds the result, but x0 stays 0. -/
  dest : t.x rd = if rd = 0#5 then 0#32 else v
  /-- Every other register is unchanged. -/
  others : ∀ r, r ≠ rd → t.x r = s.x r
  /-- What the environment will drive is unchanged. -/
  inputs : t.inputs = s.inputs
  /-- The parameters are unchanged. -/
  params : t.params = s.params

/-- The cycle accepts no unclassified word: a run all of whose cycles are clean never sees `illegal`. -/
def Cycle.clean (alt : BitVec 7) (c : Cycle) : Bool :=
  !(c.accepts && unclassifiedWith alt c.instr)

/-- The register file after one cycle's edge under `IGNORE`, from the spec's own step function. -/
def regsAfterCycle (alt : BitVec 7) (r : RegFile) (c : Cycle) : RegFile :=
  if c.rst then RegFile.zero
  else if c.instrValid then regsAfterWord alt r c.instr
  else r

/-- A state with another policy for unclassified words. -/
def State.withPolicy (s : State) (p : Config.UnclassifiedPolicy) : State :=
  { s with params := { s.params with policy := p } }

/-- The run of `n` steps from `s` is safe: no step of it stops. -/
def SafeRun (n : Nat) (s : State) : Prop := ∃ t, Sys2Proof.core.run n s = .next t

end Sys2Proof.Machine
end

