-- ==== Sys2Proof/Certificates/Slice0/Obligations.lean ====
section
/-! DEFINITION. The statements for the provers. Each per-instruction statement says four things: which words are
the instruction, that it executes in every state, what it writes, and that it changes nothing else. -/

open Sys2Proof Sys2Proof.Machine

namespace Sys2Proof.Machine

/-- Bits `lo + len - 1` down to `lo` of a word, by plain arithmetic on its unsigned value (00_scope.md R13). -/
def bitsAt (w : Word) (lo len : Nat) : BitVec len := BitVec.ofNat len (w.toNat / 2 ^ lo)

/-- The instruction executes in `s`, changes nothing but `rd`, and gives it a value with the given property. -/
def Executes (i : Instr) (rd : RegIdx) (s : State) (result : Word → Prop) : Prop :=
  ∃ t v, exec i s = .next t ∧ OnlyWrites rd v s t ∧ result v

/-- The pseudo-instruction has an expansion, and that instruction executes as `Executes` says. -/
def ExpandsAndExecutes (p : Pseudo) (rd : RegIdx) (s : State) (result : Word → Prop) : Prop :=
  ∃ i, p.expand = some i ∧ Executes i rd s result

/-- The invariant of the machine: x0 is 0 (R22) and the build parameters are those it was built with (R33). -/
structure Inv (p : Config.Params) (s : State) : Prop where
  /-- The hardwired register reads 0. -/
  x0 : s.x 0#5 = 0#32
  /-- The parameters are fixed at build time. -/
  params : s.params = p

end Sys2Proof.Machine

/-- O1. After reset every register x0..x31 reads 0 (R140). -/
def Obligations.ResetLeavesEveryRegisterZero : Prop :=
  ∀ i : RegIdx, State.reset.x i = 0#32

/-- O2. Reads and writes of the register file (R21, R22). -/
def Obligations.RegisterFileReadsAndWrites : Prop :=
  ∀ (r : RegFile) (i j : RegIdx) (v : Word),
    r.read 0#5 = 0#32 ∧ r.write 0#5 v = r ∧
    (i ≠ 0#5 → (r.write i v).read i = v) ∧
    (j ≠ i → (r.write i v).read j = r.read j)

/-- O3. The accessors over an index wider than 5 bits (the spec's decision D20; the Nat index is the model's choice, log
entry 6). -/
def Obligations.CheckedAccessorsRejectWideIndices : Prop :=
  ∀ (r : RegFile) (i : Nat) (v : Word),
    (31 < i → r.readChecked i = .error (.invalidRegisterIndex i) ∧
      r.writeChecked i v = .error (.invalidRegisterIndex i)) ∧
    (i ≤ 31 → r.readChecked i = .ok (r.read (BitVec.ofNat 5 i)) ∧
      r.writeChecked i v = .ok (r.write (BitVec.ofNat 5 i) v))

/-- O4. A write to x0 is executed and discarded (the spec's inference from R85 and R22). -/
def Obligations.WritesToX0ChangeNothing : Prop :=
  ∀ (i : Instr) (s : State), i.rd = 0#5 → exec i s = .next s

/-- O5. The field extractor (R54 to R56). -/
def Obligations.ExtractedFieldsAreTheWordsBits : Prop :=
  ∀ w : Word,
    (extract w).opcode.toNat = w.toNat % 2 ^ 7 ∧
    (extract w).rd.toNat = w.toNat / 2 ^ 7 % 2 ^ 5 ∧
    (extract w).funct3.toNat = w.toNat / 2 ^ 12 % 2 ^ 3 ∧
    (extract w).rs1.toNat = w.toNat / 2 ^ 15 % 2 ^ 5 ∧
    (extract w).rs2.toNat = w.toNat / 2 ^ 20 % 2 ^ 5 ∧
    (extract w).funct7.toNat = w.toNat / 2 ^ 25 ∧
    (∀ k, k < 11 → (extract w).imm.getLsbD k = w.getLsbD (20 + k)) ∧
    (∀ k, 11 ≤ k → k < 32 → (extract w).imm.getLsbD k = w.getLsbD 31) ∧
    -2048 ≤ (extract w).imm.toInt ∧ (extract w).imm.toInt ≤ 2047

/-- O6. Format selection (R58). -/
def Obligations.FormatIsByOpcodeAlone : Prop :=
  ∀ w : Word,
    (extract w).opcode = bitsAt w 0 7 ∧
    ((extract w).fmt = .R ↔ bitsAt w 0 7 = 0b0110011#7) ∧
    ((extract w).fmt = .I ↔ bitsAt w 0 7 = 0b0010011#7) ∧
    ((extract w).fmt = .U ↔ bitsAt w 0 7 ≠ 0b0110011#7 ∧ bitsAt w 0 7 ≠ 0b0010011#7)

/-- O7. The opcode map (the spec's inference R71 from its dispatch function). -/
def Obligations.EveryWordIsExactlyItsRow : Prop :=
  ∀ w : Word,
    (∀ op, matchesRow w op = true ↔ ∃ i, decode w = .classified i ∧ i.op = op) ∧
    (∀ a b, matchesRow w a = true → matchesRow w b = true → a = b) ∧
    ((∀ op, matchesRow w op = false) ↔ decode w = .unclassified w)

/-- O8. Decode after encode, for all 19 instructions. The immediate is held sign-extended (the model's choice, log entry 7). -/
def Obligations.DecodeOfEncodeIsTheInstruction : Prop :=
  ∀ (alt : BitVec 7) (i : Instr), alt ≠ 0#7 → i.wellFormed = true →
    decodeWith alt (encodeWith alt i) = .classified i

/-- O9. Encode after decode: each classified word has one meaning and no bit of it is dropped. -/
def Obligations.EncodeOfDecodeIsTheWord : Prop :=
  ∀ (alt : BitVec 7) (w : Word) (i : Instr), decodeWith alt w = .classified i →
    i.wellFormed = true ∧ encodeWith alt i = w

/-- O10. Words of 95_test_vectors.md sections 1.2, 2.2 and 2.5. -/
def Obligations.SampleWordsDecodeToTheirInstructions : Prop :=
  decode 0x01390A33#32 = .classified (.add 20#5 18#5 19#5) ∧
  decode 0x41390A33#32 = .classified (.sub 20#5 18#5 19#5) ∧
  decode 0x01392A33#32 = .classified (.slt 20#5 18#5 19#5) ∧
  decode 0x41395A33#32 = .classified (.sra 20#5 18#5 19#5) ∧
  decode 0x01397A33#32 = .classified (.and 20#5 18#5 19#5) ∧
  decode 0xFFF90A13#32 = .classified (.addi 20#5 18#5 0xFFFFFFFF#32) ∧
  decode 0x80093A13#32 = .classified (.sltiu 20#5 18#5 0xFFFFF800#32) ∧
  decode 0x5A596A13#32 = .classified (.ori 20#5 18#5 0x000005A5#32) ∧
  decode 0x00491A13#32 = .classified (.slli 20#5 18#5 4#5) ∧
  decode 0x40495A13#32 = .classified (.srai 20#5 18#5 4#5) ∧
  decode 0x40491A13#32 = .unclassified 0x40491A13#32 ∧
  decode 0x80000033#32 = .unclassified 0x80000033#32 ∧
  decode 0x00000000#32 = .unclassified 0x00000000#32

/-- O11. The unclassified space, with the strict comparison of the spec's decision D3. -/
def Obligations.WordsOutsideTheTableAreUnclassified : Prop :=
  ∀ (alt : BitVec 7) (w : Word),
    (bitsAt w 0 7 ≠ 0b0110011#7 → bitsAt w 0 7 ≠ 0b0010011#7 → decodeWith alt w = .unclassified w) ∧
    (bitsAt w 0 7 = 0b0110011#7 → bitsAt w 25 7 ≠ 0#7 →
      (bitsAt w 25 7 ≠ alt ∨ (bitsAt w 12 3 ≠ 0b000#3 ∧ bitsAt w 12 3 ≠ 0b101#3)) →
      decodeWith alt w = .unclassified w) ∧
    (bitsAt w 0 7 = 0b0010011#7 → bitsAt w 12 3 = 0b001#3 → bitsAt w 25 7 ≠ 0#7 →
      decodeWith alt w = .unclassified w) ∧
    (bitsAt w 0 7 = 0b0010011#7 → bitsAt w 12 3 = 0b101#3 → bitsAt w 25 7 ≠ 0#7 → bitsAt w 25 7 ≠ alt →
      decodeWith alt w = .unclassified w)

/-- O12. The environment's byte order, an open parameter; the two orders are the model's choice (log entry 8). -/
def Obligations.ByteImagesDecodeInEitherOrder : Prop :=
  (∀ b0 b1 b2 b3 : Byte,
    (wordOfBytes .little b0 b1 b2 b3).toNat =
      b0.toNat + b1.toNat * 2 ^ 8 + b2.toNat * 2 ^ 16 + b3.toNat * 2 ^ 24 ∧
    (wordOfBytes .big b0 b1 b2 b3).toNat =
      b3.toNat + b2.toNat * 2 ^ 8 + b1.toNat * 2 ^ 16 + b0.toNat * 2 ^ 24) ∧
  (∀ (o : Config.FetchByteOrder) (b0 b1 b2 b3 : Byte) (rest : List Byte) (i : Instr),
    decode (wordOfBytes o b0 b1 b2 b3) = .classified i →
    decodeBytes o (b0 :: b1 :: b2 :: b3 :: rest) = .ok (i, rest)) ∧
  (∀ (o : Config.FetchByteOrder) (b0 b1 b2 b3 : Byte) (rest : List Byte) (w : Word),
    decode (wordOfBytes o b0 b1 b2 b3) = .unclassified w →
    decodeBytes o (b0 :: b1 :: b2 :: b3 :: rest) = .error (.unclassified w)) ∧
  (∀ (o : Config.FetchByteOrder) (bs : List Byte), bs.length < 4 →
    decodeBytes o bs = .error (.truncated bs.length))

/-- O13. ADD: its encoding, its completion, its result and its frame (R98). -/
def Obligations.AddWritesTheWrappedSum : Prop :=
  (∀ w : Word, w &&& 0xFE00707F#32 = 0x00000033#32 →
    decode w = .classified (.add (bitsAt w 7 5) (bitsAt w 15 5) (bitsAt w 20 5))) ∧
  ∀ (rd rs1 rs2 : RegIdx) (s : State), ∃ t v,
    exec (.add rd rs1 rs2) s = .next t ∧ OnlyWrites rd v s t ∧
    v.toNat = ((s.x rs1).toNat + (s.x rs2).toNat) % 2 ^ 32

/-- O14. SUB: its encoding, its completion, its result and its frame (R99). -/
def Obligations.SubWritesTheWrappedDifference : Prop :=
  (∀ w : Word, w &&& 0xFE00707F#32 = 0x40000033#32 →
    decode w = .classified (.sub (bitsAt w 7 5) (bitsAt w 15 5) (bitsAt w 20 5))) ∧
  ∀ (rd rs1 rs2 : RegIdx) (s : State), ∃ t v,
    exec (.sub rd rs1 rs2) s = .next t ∧ OnlyWrites rd v s t ∧
    (v.toNat : Int) = (((s.x rs1).toNat : Int) - ((s.x rs2).toNat : Int)) % 2 ^ 32

/-- O15. SLL: its encoding, its completion, its result and its frame (R100). -/
def Obligations.SllShiftsLeftByLowFiveBits : Prop :=
  (∀ w : Word, w &&& 0xFE00707F#32 = 0x00001033#32 →
    decode w = .classified (.sll (bitsAt w 7 5) (bitsAt w 15 5) (bitsAt w 20 5))) ∧
  ∀ (rd rs1 rs2 : RegIdx) (s : State), ∃ t v,
    exec (.sll rd rs1 rs2) s = .next t ∧ OnlyWrites rd v s t ∧
    v.toNat = (s.x rs1).toNat * 2 ^ ((s.x rs2).toNat % 32) % 2 ^ 32

/-- O16. SLT: its encoding, its completion, its result and its frame (R101). -/
def Obligations.SltWritesTheSignedComparison : Prop :=
  (∀ w : Word, w &&& 0xFE00707F#32 = 0x00002033#32 →
    decode w = .classified (.slt (bitsAt w 7 5) (bitsAt w 15 5) (bitsAt w 20 5))) ∧
  ∀ (rd rs1 rs2 : RegIdx) (s : State), ∃ t v,
    exec (.slt rd rs1 rs2) s = .next t ∧ OnlyWrites rd v s t ∧
    v.toNat = if (s.x rs1).toInt < (s.x rs2).toInt then 1 else 0

/-- O17. SLTU: its encoding, its completion, its result and its frame (R102). -/
def Obligations.SltuWritesTheUnsignedComparison : Prop :=
  (∀ w : Word, w &&& 0xFE00707F#32 = 0x00003033#32 →
    decode w = .classified (.sltu (bitsAt w 7 5) (bitsAt w 15 5) (bitsAt w 20 5))) ∧
  ∀ (rd rs1 rs2 : RegIdx) (s : State), ∃ t v,
    exec (.sltu rd rs1 rs2) s = .next t ∧ OnlyWrites rd v s t ∧
    v.toNat = if (s.x rs1).toNat < (s.x rs2).toNat then 1 else 0

/-- O18. XOR: its encoding, its completion, its result and its frame (R103). -/
def Obligations.XorWritesTheBitwiseXor : Prop :=
  (∀ w : Word, w &&& 0xFE00707F#32 = 0x00004033#32 →
    decode w = .classified (.xor (bitsAt w 7 5) (bitsAt w 15 5) (bitsAt w 20 5))) ∧
  ∀ (rd rs1 rs2 : RegIdx) (s : State), ∃ t v,
    exec (.xor rd rs1 rs2) s = .next t ∧ OnlyWrites rd v s t ∧
    ∀ k, k < 32 → v.getLsbD k = ((s.x rs1).getLsbD k != (s.x rs2).getLsbD k)

/-- O19. SRL: its encoding, its completion, its result and its frame (R104). -/
def Obligations.SrlShiftsRightZeroFilled : Prop :=
  (∀ w : Word, w &&& 0xFE00707F#32 = 0x00005033#32 →
    decode w = .classified (.srl (bitsAt w 7 5) (bitsAt w 15 5) (bitsAt w 20 5))) ∧
  ∀ (rd rs1 rs2 : RegIdx) (s : State), ∃ t v,
    exec (.srl rd rs1 rs2) s = .next t ∧ OnlyWrites rd v s t ∧
    v.toNat = (s.x rs1).toNat / 2 ^ ((s.x rs2).toNat % 32)

/-- O20. SRA: its encoding, its completion, its result and its frame (R105). -/
def Obligations.SraShiftsRightSignFilled : Prop :=
  (∀ w : Word, w &&& 0xFE00707F#32 = 0x40005033#32 →
    decode w = .classified (.sra (bitsAt w 7 5) (bitsAt w 15 5) (bitsAt w 20 5))) ∧
  ∀ (rd rs1 rs2 : RegIdx) (s : State), ∃ t v,
    exec (.sra rd rs1 rs2) s = .next t ∧ OnlyWrites rd v s t ∧
    ∀ k, k < 32 → v.getLsbD k = (s.x rs1).getLsbD (min (k + (s.x rs2).toNat % 32) 31)

/-- O21. OR: its encoding, its completion, its result and its frame (R106). -/
def Obligations.OrWritesTheBitwiseOr : Prop :=
  (∀ w : Word, w &&& 0xFE00707F#32 = 0x00006033#32 →
    decode w = .classified (.or (bitsAt w 7 5) (bitsAt w 15 5) (bitsAt w 20 5))) ∧
  ∀ (rd rs1 rs2 : RegIdx) (s : State), ∃ t v,
    exec (.or rd rs1 rs2) s = .next t ∧ OnlyWrites rd v s t ∧
    ∀ k, k < 32 → v.getLsbD k = ((s.x rs1).getLsbD k || (s.x rs2).getLsbD k)

/-- O22. AND: its encoding, its completion, its result and its frame (R107). -/
def Obligations.AndWritesTheBitwiseAnd : Prop :=
  (∀ w : Word, w &&& 0xFE00707F#32 = 0x00007033#32 →
    decode w = .classified (.and (bitsAt w 7 5) (bitsAt w 15 5) (bitsAt w 20 5))) ∧
  ∀ (rd rs1 rs2 : RegIdx) (s : State), ∃ t v,
    exec (.and rd rs1 rs2) s = .next t ∧ OnlyWrites rd v s t ∧
    ∀ k, k < 32 → v.getLsbD k = ((s.x rs1).getLsbD k && (s.x rs2).getLsbD k)

/-- O23. ADDI: its encoding, its completion, its result and its frame (R111). -/
def Obligations.AddiWritesTheWrappedSum : Prop :=
  (∀ w : Word, w &&& 0x0000707F#32 = 0x00000013#32 →
    decode w = .classified (.addi (bitsAt w 7 5) (bitsAt w 15 5) ((bitsAt w 20 12).signExtend 32))) ∧
  ∀ (rd rs1 : RegIdx) (imm : Word) (s : State), ∃ t v,
    exec (.addi rd rs1 imm) s = .next t ∧ OnlyWrites rd v s t ∧
    v.toNat = ((s.x rs1).toNat + imm.toNat) % 2 ^ 32

/-- O24. SLTI: its encoding, its completion, its result and its frame (the decision D4 of 92_eei_decisions.md). -/
def Obligations.SltiWritesTheSignedComparison : Prop :=
  (∀ w : Word, w &&& 0x0000707F#32 = 0x00002013#32 →
    decode w = .classified (.slti (bitsAt w 7 5) (bitsAt w 15 5) ((bitsAt w 20 12).signExtend 32))) ∧
  ∀ (rd rs1 : RegIdx) (imm : Word) (s : State), ∃ t v,
    exec (.slti rd rs1 imm) s = .next t ∧ OnlyWrites rd v s t ∧
    v.toNat = if (s.x rs1).toInt < imm.toInt then 1 else 0

/-- O25. SLTIU: its encoding, its completion, its result and its frame (the decision D4 of 92_eei_decisions.md). -/
def Obligations.SltiuWritesTheUnsignedComparison : Prop :=
  (∀ w : Word, w &&& 0x0000707F#32 = 0x00003013#32 →
    decode w = .classified (.sltiu (bitsAt w 7 5) (bitsAt w 15 5) ((bitsAt w 20 12).signExtend 32))) ∧
  ∀ (rd rs1 : RegIdx) (imm : Word) (s : State), ∃ t v,
    exec (.sltiu rd rs1 imm) s = .next t ∧ OnlyWrites rd v s t ∧
    v.toNat = if (s.x rs1).toNat < imm.toNat then 1 else 0

/-- O26. XORI: its encoding, its completion, its result and its frame (R114). -/
def Obligations.XoriWritesTheBitwiseXor : Prop :=
  (∀ w : Word, w &&& 0x0000707F#32 = 0x00004013#32 →
    decode w = .classified (.xori (bitsAt w 7 5) (bitsAt w 15 5) ((bitsAt w 20 12).signExtend 32))) ∧
  ∀ (rd rs1 : RegIdx) (imm : Word) (s : State), ∃ t v,
    exec (.xori rd rs1 imm) s = .next t ∧ OnlyWrites rd v s t ∧
    ∀ k, k < 32 → v.getLsbD k = ((s.x rs1).getLsbD k != imm.getLsbD k)

/-- O27. ORI: its encoding, its completion, its result and its frame (R115). -/
def Obligations.OriWritesTheBitwiseOr : Prop :=
  (∀ w : Word, w &&& 0x0000707F#32 = 0x00006013#32 →
    decode w = .classified (.ori (bitsAt w 7 5) (bitsAt w 15 5) ((bitsAt w 20 12).signExtend 32))) ∧
  ∀ (rd rs1 : RegIdx) (imm : Word) (s : State), ∃ t v,
    exec (.ori rd rs1 imm) s = .next t ∧ OnlyWrites rd v s t ∧
    ∀ k, k < 32 → v.getLsbD k = ((s.x rs1).getLsbD k || imm.getLsbD k)

/-- O28. ANDI: its encoding, its completion, its result and its frame (R116). -/
def Obligations.AndiWritesTheBitwiseAnd : Prop :=
  (∀ w : Word, w &&& 0x0000707F#32 = 0x00007013#32 →
    decode w = .classified (.andi (bitsAt w 7 5) (bitsAt w 15 5) ((bitsAt w 20 12).signExtend 32))) ∧
  ∀ (rd rs1 : RegIdx) (imm : Word) (s : State), ∃ t v,
    exec (.andi rd rs1 imm) s = .next t ∧ OnlyWrites rd v s t ∧
    ∀ k, k < 32 → v.getLsbD k = ((s.x rs1).getLsbD k && imm.getLsbD k)

/-- O29. SLLI: its encoding, its completion, its result and its frame (decisions D1, D3 of 92_eei_decisions.md). -/
def Obligations.SlliShiftsLeftByItsAmount : Prop :=
  (∀ w : Word, w &&& 0xFE00707F#32 = 0x00001013#32 →
    decode w = .classified (.slli (bitsAt w 7 5) (bitsAt w 15 5) (bitsAt w 20 5))) ∧
  ∀ (rd rs1 : RegIdx) (shamt : BitVec 5) (s : State), ∃ t v,
    exec (.slli rd rs1 shamt) s = .next t ∧ OnlyWrites rd v s t ∧
    v.toNat = (s.x rs1).toNat * 2 ^ shamt.toNat % 2 ^ 32

/-- O30. SRLI: its encoding, its completion, its result and its frame (decisions D1, D3 of 92_eei_decisions.md). -/
def Obligations.SrliShiftsRightZeroFilled : Prop :=
  (∀ w : Word, w &&& 0xFE00707F#32 = 0x00005013#32 →
    decode w = .classified (.srli (bitsAt w 7 5) (bitsAt w 15 5) (bitsAt w 20 5))) ∧
  ∀ (rd rs1 : RegIdx) (shamt : BitVec 5) (s : State), ∃ t v,
    exec (.srli rd rs1 shamt) s = .next t ∧ OnlyWrites rd v s t ∧
    v.toNat = (s.x rs1).toNat / 2 ^ shamt.toNat

/-- O31. SRAI: its encoding, its completion, its result and its frame (decisions D1, D3 of 92_eei_decisions.md). -/
def Obligations.SraiShiftsRightSignFilled : Prop :=
  (∀ w : Word, w &&& 0xFE00707F#32 = 0x40005013#32 →
    decode w = .classified (.srai (bitsAt w 7 5) (bitsAt w 15 5) (bitsAt w 20 5))) ∧
  ∀ (rd rs1 : RegIdx) (shamt : BitVec 5) (s : State), ∃ t v,
    exec (.srai rd rs1 shamt) s = .next t ∧ OnlyWrites rd v s t ∧
    ∀ k, k < 32 → v.getLsbD k = (s.x rs1).getLsbD (min (k + shamt.toNat) 31)

/-- O32. The source's law SUB(ADD(a,b), b) == a, run on the machine. -/
def Obligations.SubUndoesAdd : Prop :=
  ∀ (rd ra rb : RegIdx) (s : State), rd ≠ 0#5 → rd ≠ rb →
    ∃ t u, exec (.add rd ra rb) s = .next t ∧ exec (.sub rd rd rb) t = .next u ∧ u.x rd = s.x ra

/-- O33. The shift amount is masked to 5 bits (R97). -/
def Obligations.ShiftsUseOnlyTheLowFiveBits : Prop :=
  ∀ op ∈ [Instr.sll, Instr.srl, Instr.sra], ∀ (rd rs1 rs2 : RegIdx) (s s' : State),
    s.x rs1 = s'.x rs1 → (s.x rs2).toNat % 32 = (s'.x rs2).toNat % 32 →
    ∃ t t', exec (op rd rs1 rs2) s = .next t ∧ exec (op rd rs1 rs2) s' = .next t' ∧
      t.x rd = t'.x rd ∧
      ((s.x rs2).toNat % 32 = 0 → rd ≠ 0#5 → t.x rd = s.x rs1)

/-- O34. The immediate replaces the second register (decisions D1 and D4 of the spec for five of the nine). -/
def Obligations.ImmediateFormsAreTheRegisterForms : Prop :=
  ∀ (rd rs1 rs2 : RegIdx) (s : State),
    (∀ imm : Word, s.x rs2 = imm →
      exec (.addi rd rs1 imm) s = exec (.add rd rs1 rs2) s ∧
      exec (.slti rd rs1 imm) s = exec (.slt rd rs1 rs2) s ∧
      exec (.sltiu rd rs1 imm) s = exec (.sltu rd rs1 rs2) s ∧
      exec (.xori rd rs1 imm) s = exec (.xor rd rs1 rs2) s ∧
      exec (.ori rd rs1 imm) s = exec (.or rd rs1 rs2) s ∧
      exec (.andi rd rs1 imm) s = exec (.and rd rs1 rs2) s) ∧
    (∀ shamt : BitVec 5, (s.x rs2).toNat % 32 = shamt.toNat →
      exec (.slli rd rs1 shamt) s = exec (.sll rd rs1 rs2) s ∧
      exec (.srli rd rs1 shamt) s = exec (.srl rd rs1 rs2) s ∧
      exec (.srai rd rs1 shamt) s = exec (.sra rd rs1 rs2) s)

/-- O35. The ALU raises nothing and no classified word stops the machine (R123). -/
def Obligations.ClassifiedWordsNeverStop : Prop :=
  ∀ (i : Instr) (s : State), goesOn (exec i s)

/-- O36. The pseudo-instructions (general knowledge in the spec, decision D21), `li` in -2048..2047 only. Pseudo-instructions as
data, with none for what is not available, are the model's choice (log entry 12), as is an instruction's immediate held
sign-extended to 32 bits (log entry 7). -/
def Obligations.PseudoInstructionsDoWhatTheTableSays : Prop :=
  (∀ (rd rs : RegIdx) (s : State),
    (∃ i, Pseudo.expand .nop = some i ∧ exec i s = .next s) ∧
    (∀ n : Int, -2048 ≤ n → n ≤ 2047 → ExpandsAndExecutes (.li rd n) rd s (fun v => v.toInt = n)) ∧
    ExpandsAndExecutes (.mv rd rs) rd s (fun v => v = s.x rs) ∧
    ExpandsAndExecutes (.not rd rs) rd s (fun v => ∀ k, k < 32 → v.getLsbD k = !(s.x rs).getLsbD k) ∧
    ExpandsAndExecutes (.neg rd rs) rd s (fun v => v.toNat = (2 ^ 32 - (s.x rs).toNat) % 2 ^ 32) ∧
    ExpandsAndExecutes (.seqz rd rs) rd s (fun v => v.toNat = if (s.x rs).toNat = 0 then 1 else 0) ∧
    ExpandsAndExecutes (.snez rd rs) rd s (fun v => v.toNat = if (s.x rs).toNat = 0 then 0 else 1) ∧
    ExpandsAndExecutes (.sltz rd rs) rd s (fun v => v.toNat = if (s.x rs).toInt < 0 then 1 else 0) ∧
    ExpandsAndExecutes (.sgtz rd rs) rd s (fun v => v.toNat = if 0 < (s.x rs).toInt then 1 else 0) ∧
    ExpandsAndExecutes (.zextB rd rs) rd s (fun v => v.toNat = (s.x rs).toNat % 256)) ∧
  (∀ (rd : RegIdx) (n : Int), n < -2048 ∨ 2047 < n → Pseudo.expand (.li rd n) = none) ∧
  (∀ (p : Pseudo) (i : Instr), p.expand = some i → i.wellFormed = true)

/-- O37. Assembler lines (general knowledge in the spec, decision D21; lines as data are the model's choice, log entry 12, as
is an instruction's immediate held sign-extended to 32 bits, log entry 7). -/
def Obligations.AssemblyLinesRoundTrip : Prop :=
  (∀ i : Instr, i.wellFormed = true → assemble (disassemble i) = some i) ∧
  (∀ (l : AsmLine) (i : Instr), assemble l = some i → i.wellFormed = true ∧ disassemble i = l) ∧
  (∀ op ∈ [Operation.addi, .slti, .sltiu, .xori, .ori, .andi], ∀ (rd rs1 : RegIdx) (n : Int),
    n < -2048 ∨ 2047 < n → assemble (.op op [.reg rd, .reg rs1, .int n]) = none) ∧
  (∀ op ∈ [Operation.slli, .srli, .srai], ∀ (rd rs1 : RegIdx) (n : Int),
    n < 0 ∨ 31 < n → assemble (.op op [.reg rd, .reg rs1, .int n]) = none)

/-- O38. A step runs the decoded instruction (the list of input cycles is the model's choice, log entries 2 and 3). -/
def Obligations.StepRunsTheDecodedInstruction : Prop :=
  (∀ (s : State) (c : Cycle) (rest : List Cycle) (i : Instr),
    s.inputs = c :: rest → c.rst = false → c.instrValid = true →
    decodeWith s.params.altFunct7 c.instr = .classified i →
    step s = exec i { s with inputs := rest }) ∧
  (∀ (s : State) (nbits w : Nat) (i : Instr),
    decodeWith s.params.altFunct7 (tableWord nbits w) = .classified i →
    step (s.withFetchWord nbits w) = exec i s)

/-- O39. The unclassified outcome under both policies (the spec's decision D5; log entries 1, 2, 4 and 5). -/
def Obligations.UnclassifiedWordsChangeNothing : Prop :=
  ∀ (s : State) (c : Cycle) (rest : List Cycle),
    s.inputs = c :: rest → c.rst = false → c.instrValid = true →
    decodeWith s.params.altFunct7 c.instr = .unclassified c.instr →
    s.illegal = true ∧
    (s.params.policy = .ignore → step s = .next { s with inputs := rest }) ∧
    (s.params.policy = .trap → step s = .fault (.unclassifiedInstruction c.instr))

/-- O40. The instruction classes the core leaves out (opcodes from general knowledge in the spec; IGNORE is decision D5; the
list of cycles is log entry 2). -/
def Obligations.ExcludedInstructionClassesChangeNothing : Prop :=
  ∀ (s : State) (c : Cycle) (rest : List Cycle),
    s.inputs = c :: rest → c.rst = false → c.instrValid = true → s.params.policy = .ignore →
    bitsAt c.instr 0 7 ∈ [0b0000011#7, 0b0100011#7, 0b1100011#7, 0b1101111#7, 0b1100111#7] ++
      [0b0001111#7, 0b0101111#7, 0b1110011#7, 0b0110111#7, 0b0010111#7] →
    s.illegal = true ∧ ∃ t, step s = .next t ∧ ∀ r, t.x r = s.x r

/-- O41. Idle edges (the spec's decision D19; the empty list as idle cycles is the model's choice, log entry 2). -/
def Obligations.IdleEdgesChangeNothing : Prop :=
  (∀ s : State, s.inputs = [] → s.illegal = false ∧ step s = .next s) ∧
  (∀ (s : State) (c : Cycle) (rest : List Cycle),
    s.inputs = c :: rest → c.rst = false → c.instrValid = false →
    s.illegal = false ∧ step s = .next { s with inputs := rest })

/-- O42. Reset edges (the spec's decision D8; the list of cycles is log entry 2). -/
def Obligations.ResetEdgesClearTheRegisters : Prop :=
  ∀ (s : State) (c : Cycle) (rest : List Cycle),
    s.inputs = c :: rest → c.rst = true →
    s.illegal = false ∧ ∃ t, step s = .next t ∧ (∀ r, t.x r = 0#32) ∧ t.inputs = rest ∧ t.params = s.params

/-- O43. The illegal output (the spec's decisions D5 and D6), through the opcode map; the present cycle is log entry 2. -/
def Obligations.IllegalOutputIsItsEquation : Prop :=
  ∀ s : State, s.params.altFunct7 = altFunct7 →
    (s.illegal = true ↔ s.presented.instrValid = true ∧ s.presented.rst = false ∧
      ∀ op, matchesRow s.presented.instr op = false)

/-- O44. The observation port (the spec's decisions D6 and D27; the list of cycles is log entry 2). -/
def Obligations.ObservationPortShowsTheWriteAfterTheEdge : Prop :=
  ∀ (s : State) (c c' : Cycle) (rest : List Cycle) (i : Instr),
    s.inputs = c :: c' :: rest → c.rst = false → c.instrValid = true →
    decodeWith s.params.altFunct7 c.instr = .classified i →
    s.dbgRdata = s.x c.dbgRaddr ∧
    ∃ t v, step s = .next t ∧ OnlyWrites i.rd v { s with inputs := c' :: rest } t ∧
      t.dbgRdata = if c'.dbgRaddr = 0#5 then 0#32 else if c'.dbgRaddr = i.rd then v else s.x c'.dbgRaddr

/-- O45. No hidden state, and no effect of the observation port (R35, R89 and decision D6; the list of
cycles is log entry 2). -/
def Obligations.StepReadsOnlyTheWordAndTheRegisters : Prop :=
  ∀ (s s' t : State), s.regs = s'.regs → s.params = s'.params →
    s.presented.rst = s'.presented.rst → s.presented.instrValid = s'.presented.instrValid →
    s.presented.instr = s'.presented.instr → step s = .next t →
    ∃ t', step s' = .next t' ∧ t'.regs = t.regs

/-- O46. At most one register mutation per word (R8). -/
def Obligations.AtMostOneRegisterChangesPerWord : Prop :=
  ∀ (w : Word) (s t : State), acceptWord w s = .next t →
    (∀ r, r ≠ bitsAt w 7 5 → t.x r = s.x r) ∧ t.inputs = s.inputs ∧ t.params = s.params ∧
    (unclassifiedWith s.params.altFunct7 w = true → ∀ r, t.x r = s.x r)

/-- O47. The only way a step stops (R91, R122, R138 with the policy of decision D5; log entries 1, 2 and 5). -/
def Obligations.StepStopsOnlyOnTrappedUnclassifiedWords : Prop :=
  ∀ s : State,
    (s.params.policy = .trap ∧ s.illegal = true →
      step s = .fault (.unclassifiedInstruction s.presented.instr)) ∧
    (¬ (s.params.policy = .trap ∧ s.illegal = true) → goesOn (step s))

/-- O48. The invariant every step keeps, and the one cycle it consumes (log entries 1 and 2). -/
def Obligations.StepKeepsParametersAndConsumesOneCycle : Prop :=
  ∀ (p : Config.Params) (s t : State), Inv p s → step s = .next t →
    Inv p t ∧ t.inputs = s.inputs.tail

/-- O49. The invariant at reset, with the spec's defaults (log entry 1). -/
def Obligations.ResetMeetsTheInvariant : Prop :=
  Inv { altFunct7 := 0b0100000#7, policy := .ignore } State.reset

/-- O50. The 19 meanings behind the decoder are the spec's datapath (R89): two designs of one block. -/
def Obligations.MachineAgreesWithTheDatapath : Prop :=
  ∀ (s : State) (w : Word),
    (∀ r, stepWord s.params.altFunct7 s.regs w = .executed r → acceptWord w s = .next { s with regs := r }) ∧
    (∀ u, stepWord s.params.altFunct7 s.regs w = .unclassified u → u = w ∧ acceptWord w s = raiseUnclassified w s)

/-- O51. The whole consistency model of the core (R48), over the model's list of cycles (log entries 1 and 2). -/
def Obligations.RunTakesEffectInOrder : Prop :=
  ∀ (cs rest : List Cycle) (s : State), s.inputs = cs ++ rest → s.params.policy = .ignore →
    Sys2Proof.core.run cs.length s =
      .next { s with
        regs := cs.foldl (regsAfterCycle s.params.altFunct7) s.regs
        inputs := rest }

/-- O52. TRAP is the conservative policy (R138 with decision D5; the policy in the state is log entry 1). -/
def Obligations.TrapRunsAreIgnoreRuns : Prop :=
  ∀ (n : Nat) (s t : State),
    Sys2Proof.core.run n (s.withPolicy .trap) = .next t →
    Sys2Proof.core.run n (s.withPolicy .ignore) = .next (t.withPolicy .ignore)

/-- O53. When a run stops (R91 with decision D5; policy and cycles in the state are log entries 1 and 2). -/
def Obligations.TrapRunsAreSafeExactlyWhenClean : Prop :=
  ∀ (n : Nat) (s : State),
    (SafeRun n (s.withPolicy .trap) ↔ ∀ c ∈ s.inputs.take n, c.clean s.params.altFunct7 = true) ∧
    SafeRun n (s.withPolicy .ignore)

/-- O54. Every register file is reachable from reset (the spec's inference in R145; the presented list is log entry 3). -/
def Obligations.EveryRegisterFileIsReachable : Prop :=
  ∀ r : RegFile, ∃ ws : List Word,
    (∀ w ∈ ws, ∃ i, decode w = .classified i ∧ (i.op = .addi ∨ i.op = .slli ∨ i.op = .ori)) ∧
    Sys2Proof.core.run ws.length { State.reset with inputs := ws.map Cycle.present } =
      .next { State.reset with regs := r }
end

