-- ==== Sys2Proof/Laws/Assembler.lean ====
section
/-! SUPPORT. What an immediate or a shift amount written as an integer can become, and what `li` expands to. -/

namespace Sys2Proof.Machine

theorem immOfInt_eq_some_iff {n : Int} {imm : Word} :
    immOfInt n = some imm ↔ (-2048 ≤ n ∧ n ≤ 2047) ∧ imm = BitVec.ofInt 32 n := by
  simp [immOfInt, eq_comm]

theorem immOfInt_eq_none_iff {n : Int} : immOfInt n = none ↔ n < -2048 ∨ 2047 < n := by
  rw [immOfInt]
  split <;> simp <;> omega

/-- An immediate that is written keeps its signed value. -/
theorem toInt_of_immOfInt {n : Int} {imm : Word} (h : immOfInt n = some imm) : imm.toInt = n := by
  obtain ⟨hn, rfl⟩ := immOfInt_eq_some_iff.1 h
  rw [BitVec.toInt_ofInt, Int.bmod_eq_of_le] <;> omega

/-- An immediate that is written is the sign extension of a 12-bit field. -/
theorem immFits_of_immOfInt {n : Int} {imm : Word} (h : immOfInt n = some imm) : immFits imm = true := by
  obtain ⟨hn, rfl⟩ := immOfInt_eq_some_iff.1 h
  rw [immFits, beq_iff_eq]
  apply BitVec.eq_of_toInt_eq
  have e : (BitVec.ofInt 32 n).setWidth 12 = BitVec.ofInt 12 n := by
    apply BitVec.eq_of_toNat_eq
    simp [BitVec.toNat_ofInt]
    omega
  rw [BitVec.toInt_signExtend_of_le (by omega), e, BitVec.toInt_ofInt, BitVec.toInt_ofInt,
    Int.bmod_eq_of_le, Int.bmod_eq_of_le] <;> omega

theorem shamtOfInt_eq_some_iff {n : Int} {k : BitVec 5} :
    shamtOfInt n = some k ↔ (0 ≤ n ∧ n ≤ 31) ∧ k = BitVec.ofInt 5 n := by
  simp [shamtOfInt, eq_comm]

theorem shamtOfInt_eq_none_iff {n : Int} : shamtOfInt n = none ↔ n < 0 ∨ 31 < n := by
  rw [shamtOfInt]
  split <;> simp <;> omega

/-- A shift amount that is written keeps its value. -/
theorem toNat_of_shamtOfInt {n : Int} {k : BitVec 5} (h : shamtOfInt n = some k) : (k.toNat : Int) = n := by
  obtain ⟨hn, rfl⟩ := shamtOfInt_eq_some_iff.1 h
  rw [BitVec.toNat_ofInt]
  omega

/-- What `li` expands to: `addi rd, x0, imm` with the written immediate, or nothing. -/
theorem expand_li (rd : RegIdx) (n : Int) :
    Pseudo.expand (.li rd n) = (immOfInt n).map (.addi rd 0#5) := rfl

end Sys2Proof.Machine
end

