-- ==== Sys2Proof/Laws/Codec.lean ====
section
/-! SUPPORT. The fields of an encoded word, and the two ways a decoding ends (30_encoding.md R54 to R60, R65, R72). -/

namespace Sys2Proof

/-- A decoding is the built instruction of the dispatched operation, or carries the whole word (R65, R124). -/
theorem decodeWith_cases (alt : BitVec 7) (w : Word) :
    (∃ op, dispatchWith alt (extract w) = some op ∧
      decodeWith alt w = .classified (op.build (extract w))) ∨
    (dispatchWith alt (extract w) = none ∧ decodeWith alt w = .unclassified w) := by
  unfold decodeWith
  cases h : dispatchWith alt (extract w) with
  | none => exact .inr ⟨rfl, rfl⟩
  | some op => exact .inl ⟨op, rfl, rfl⟩

theorem build_op (op : Operation) (d : Fields) : (op.build d).op = op := by
  cases op <;> rfl

theorem build_rd (op : Operation) (d : Fields) : (op.build d).rd = d.rd := by
  cases op <;> rfl

theorem build_rs1 (op : Operation) (d : Fields) : (op.build d).rs1 = d.rs1 := by
  cases op <;> rfl

section EncR

variable (f7 : BitVec 7) (rs2 rs1 : RegIdx) (f3 : BitVec 3) (rd : RegIdx)

theorem encR_toNat : (encR f7 rs2 rs1 f3 rd).toNat =
    f7.toNat * 2 ^ 25 + rs2.toNat * 2 ^ 20 + rs1.toNat * 2 ^ 15 + f3.toNat * 2 ^ 12
      + rd.toNat * 2 ^ 7 + 0b0110011 := by
  simp only [encR, opcodeOp, BitVec.toNat_append, BitVec.toNat_ofNat]
  have := f7.isLt; have := rs2.isLt; have := rs1.isLt; have := f3.isLt; have := rd.isLt
  rw [← Nat.shiftLeft_add_eq_or_of_lt (by omega), ← Nat.shiftLeft_add_eq_or_of_lt (by omega),
    ← Nat.shiftLeft_add_eq_or_of_lt (by omega), ← Nat.shiftLeft_add_eq_or_of_lt (by omega),
    ← Nat.shiftLeft_add_eq_or_of_lt (by omega)]
  simp only [Nat.shiftLeft_eq]
  omega

theorem encR_opcode : (encR f7 rs2 rs1 f3 rd).extractLsb' 0 7 = opcodeOp := by
  have := f7.isLt; have := rs2.isLt; have := rs1.isLt; have := f3.isLt; have := rd.isLt
  apply BitVec.eq_of_toNat_eq
  simp only [BitVec.extractLsb'_toNat, encR_toNat, Nat.shiftRight_eq_div_pow, opcodeOp, BitVec.toNat_ofNat]
  omega

/-- The field extractor reads an R-type word's fields back (R54, R55, R58). -/
theorem extract_encR : (extract (encR f7 rs2 rs1 f3 rd)).fmt = .R ∧
    (extract (encR f7 rs2 rs1 f3 rd)).rd = rd ∧ (extract (encR f7 rs2 rs1 f3 rd)).funct3 = f3 ∧
    (extract (encR f7 rs2 rs1 f3 rd)).rs1 = rs1 ∧ (extract (encR f7 rs2 rs1 f3 rd)).rs2 = rs2 ∧
    (extract (encR f7 rs2 rs1 f3 rd)).funct7 = f7 := by
  refine ⟨by simp [extract, encR_opcode, formatOf], ?_, ?_, ?_, ?_, ?_⟩ <;>
    have := f7.isLt <;> have := rs2.isLt <;> have := rs1.isLt <;> have := f3.isLt <;> have := rd.isLt <;>
    apply BitVec.eq_of_toNat_eq <;>
    simp only [extract, BitVec.extractLsb'_toNat, encR_toNat, Nat.shiftRight_eq_div_pow] <;>
    omega

end EncR

section EncI

variable (m : BitVec 12) (rs1 : RegIdx) (f3 : BitVec 3) (rd : RegIdx)

theorem encI_toNat : (encI m rs1 f3 rd).toNat =
    m.toNat * 2 ^ 20 + rs1.toNat * 2 ^ 15 + f3.toNat * 2 ^ 12 + rd.toNat * 2 ^ 7 + 0b0010011 := by
  simp only [encI, opcodeOpImm, BitVec.toNat_append, BitVec.toNat_ofNat]
  have := m.isLt; have := rs1.isLt; have := f3.isLt; have := rd.isLt
  rw [← Nat.shiftLeft_add_eq_or_of_lt (by omega), ← Nat.shiftLeft_add_eq_or_of_lt (by omega),
    ← Nat.shiftLeft_add_eq_or_of_lt (by omega), ← Nat.shiftLeft_add_eq_or_of_lt (by omega)]
  simp only [Nat.shiftLeft_eq]
  omega

theorem encI_opcode : (encI m rs1 f3 rd).extractLsb' 0 7 = opcodeOpImm := by
  have := m.isLt; have := rs1.isLt; have := f3.isLt; have := rd.isLt
  apply BitVec.eq_of_toNat_eq
  simp only [BitVec.extractLsb'_toNat, encI_toNat, Nat.shiftRight_eq_div_pow, opcodeOpImm, BitVec.toNat_ofNat]
  omega

theorem encI_immBits : (encI m rs1 f3 rd).extractLsb' 20 12 = m := by
  have := m.isLt; have := rs1.isLt; have := f3.isLt; have := rd.isLt
  apply BitVec.eq_of_toNat_eq
  simp only [BitVec.extractLsb'_toNat, encI_toNat, Nat.shiftRight_eq_div_pow]
  omega

/-- The field extractor reads an I-type word's fields back, the immediate sign-extended (R54, R56, R58). -/
theorem extract_encI : (extract (encI m rs1 f3 rd)).fmt = .I ∧
    (extract (encI m rs1 f3 rd)).rd = rd ∧ (extract (encI m rs1 f3 rd)).funct3 = f3 ∧
    (extract (encI m rs1 f3 rd)).rs1 = rs1 ∧
    (extract (encI m rs1 f3 rd)).imm = m.signExtend 32 := by
  refine ⟨by simp [extract, encI_opcode, formatOf, opcodeOpImm, opcodeOp], ?_, ?_, ?_,
    by simp [extract, immField, encI_immBits]⟩ <;>
    have := m.isLt <;> have := rs1.isLt <;> have := f3.isLt <;> have := rd.isLt <;>
    apply BitVec.eq_of_toNat_eq <;>
    simp only [extract, BitVec.extractLsb'_toNat, encI_toNat, Nat.shiftRight_eq_div_pow] <;>
    omega

/-- The selector and the shift amount of a sign-extended shift immediate are its two parts (R57). -/
theorem shiftParts (sel : BitVec 7) (k : BitVec 5) :
    ((sel ++ k : BitVec 12).signExtend 32).extractLsb' 5 7 = sel ∧
    ((sel ++ k : BitVec 12).signExtend 32).extractLsb' 0 5 = k := by
  constructor <;> ext i hi
  · have h1 : 5 + i < 32 := by omega
    have h2 : 5 + i < 12 := by omega
    rw [BitVec.getElem_extractLsb', BitVec.getLsbD_eq_getElem h1, BitVec.getElem_signExtend]
    simpa [h2] using BitVec.getElem_append (x := sel) (y := k) (i := 5 + i) (by omega)
  · have h1 : 0 + i < 32 := by omega
    have h2 : i < 12 := by omega
    rw [BitVec.getElem_extractLsb', BitVec.getLsbD_eq_getElem h1, BitVec.getElem_signExtend]
    simpa [h2, hi] using BitVec.getElem_append (x := sel) (y := k) (i := i) (by omega)

end EncI

/-! ## The immediate of a word, bit by bit (R56, R57) -/

theorem immField_getLsbD (w : Word) {k : Nat} (hk : k < 32) :
    (immField w).getLsbD k = if k < 12 then w.getLsbD (20 + k) else w.getLsbD 31 := by
  unfold immField
  rw [BitVec.getLsbD_signExtend]
  by_cases h : k < 12
  · simp [h, hk]
  · simp [h, hk, BitVec.msb_eq_getLsbD_last]

/-- The selector `imm[11:5]` is `word[31:25]` (R57). -/
theorem immField_selector (w : Word) : (immField w).extractLsb' 5 7 = w.extractLsb' 25 7 := by
  ext i hi
  simp only [BitVec.getElem_extractLsb']
  rw [immField_getLsbD _ (by omega), if_pos (by omega)]
  congr 1; omega

/-- The shift amount `imm[4:0]` is `word[24:20]` (R57). -/
theorem immField_shamt (w : Word) : (immField w).extractLsb' 0 5 = w.extractLsb' 20 5 := by
  ext i hi
  simp only [BitVec.getElem_extractLsb']
  rw [immField_getLsbD _ (by omega), if_pos (by omega)]
  congr 1; omega

/-- Dispatch sees a word only through its opcode, funct3 and bits 31..25 (R65). -/
theorem dispatchWith_extract (alt : BitVec 7) (w : Word) :
    dispatchWith alt (extract w) =
      match formatOf (w.extractLsb' 0 7) with
      | .R => dispatchR alt (w.extractLsb' 25 7) (w.extractLsb' 12 3)
      | .I => dispatchI alt (w.extractLsb' 25 7) (w.extractLsb' 12 3)
      | .U => none := by
  cases h : formatOf (BitVec.extractLsb' 0 7 w) <;> simp [dispatchWith, extract, immField_selector, h]

/-! ## Masks: what agreeing under one of the two masks of R71 says of the fields -/

theorem extractLsb'_and (w m : Word) (lo len : Nat) :
    (w &&& m).extractLsb' lo len = w.extractLsb' lo len &&& m.extractLsb' lo len := by
  ext i hi; simp

theorem getLsbD_of_extract_eq {w v : Word} {lo len : Nat} (h : w.extractLsb' lo len = v.extractLsb' lo len)
    {i : Nat} (h1 : lo ≤ i) (h2 : i < lo + len) : w.getLsbD i = v.getLsbD i := by
  have := congrArg (fun x => x.getLsbD (i - lo)) h
  simpa [BitVec.getLsbD_extractLsb', show i - lo < len by omega, show lo + (i - lo) = i by omega] using this

/-- The mask `0x0000707F` keeps opcode and funct3. -/
theorem and_narrowMask_eq_iff (w v : Word) (hv : v &&& 0x0000707F#32 = v) :
    w &&& 0x0000707F#32 = v ↔
      w.extractLsb' 0 7 = v.extractLsb' 0 7 ∧ w.extractLsb' 12 3 = v.extractLsb' 12 3 := by
  rw [← hv]
  constructor
  · intro h
    have e1 : (0x0000707F#32).extractLsb' 0 7 = BitVec.allOnes 7 := by decide
    have e2 : (0x0000707F#32).extractLsb' 12 3 = BitVec.allOnes 3 := by decide
    have h1 := congrArg (BitVec.extractLsb' 0 7) h
    have h2 := congrArg (BitVec.extractLsb' 12 3) h
    simp only [extractLsb'_and, e1, e2, BitVec.and_allOnes] at h1 h2 ⊢
    exact ⟨h1, h2⟩
  · simp only [hv]
    rintro ⟨h1, h2⟩
    rw [← hv]
    apply BitVec.eq_of_getLsbD_eq
    intro i hi
    rw [BitVec.getLsbD_and, BitVec.getLsbD_and]
    by_cases a : i < 7
    · rw [getLsbD_of_extract_eq h1 (by omega) (by omega)]
    by_cases b : 12 ≤ i ∧ i < 15
    · rw [getLsbD_of_extract_eq h2 (by omega) (by omega)]
    have : (0x0000707F#32).getLsbD i = false := by interval_cases i <;> first | rfl | omega
    rw [this]; simp

/-- The mask `0xFE00707F` keeps opcode, funct3 and bits 31..25. -/
theorem and_wideMask_eq_iff (w v : Word) (hv : v &&& 0xFE00707F#32 = v) :
    w &&& 0xFE00707F#32 = v ↔
      w.extractLsb' 0 7 = v.extractLsb' 0 7 ∧ w.extractLsb' 12 3 = v.extractLsb' 12 3 ∧
        w.extractLsb' 25 7 = v.extractLsb' 25 7 := by
  rw [← hv]
  constructor
  · intro h
    have e1 : (0xFE00707F#32).extractLsb' 0 7 = BitVec.allOnes 7 := by decide
    have e2 : (0xFE00707F#32).extractLsb' 12 3 = BitVec.allOnes 3 := by decide
    have e3 : (0xFE00707F#32).extractLsb' 25 7 = BitVec.allOnes 7 := by decide
    have h1 := congrArg (BitVec.extractLsb' 0 7) h
    have h2 := congrArg (BitVec.extractLsb' 12 3) h
    have h3 := congrArg (BitVec.extractLsb' 25 7) h
    simp only [extractLsb'_and, e1, e2, e3, BitVec.and_allOnes] at h1 h2 h3 ⊢
    exact ⟨h1, h2, h3⟩
  · simp only [hv]
    rintro ⟨h1, h2, h3⟩
    rw [← hv]
    apply BitVec.eq_of_getLsbD_eq
    intro i hi
    rw [BitVec.getLsbD_and, BitVec.getLsbD_and]
    by_cases a : i < 7
    · rw [getLsbD_of_extract_eq h1 (by omega) (by omega)]
    by_cases b : 12 ≤ i ∧ i < 15
    · rw [getLsbD_of_extract_eq h2 (by omega) (by omega)]
    by_cases c : 25 ≤ i
    · rw [getLsbD_of_extract_eq h3 (by omega) (by omega)]
    have : (0xFE00707F#32).getLsbD i = false := by interval_cases i <;> first | rfl | omega
    rw [this]; simp

end Sys2Proof
end

