-- ==== Sys2Proof/Laws/State.lean ====
section
/-! SUPPORT. One lemma per field per update of `State`, each true by `rfl`, so that no later proof unfolds a record
update. -/

namespace Sys2Proof.Machine

variable (s : State) (i : RegIdx) (v : Word)

@[simp] theorem State.writeReg_regs : (s.writeReg i v).regs = s.regs.write i v := rfl
@[simp] theorem State.writeReg_inputs : (s.writeReg i v).inputs = s.inputs := rfl
@[simp] theorem State.writeReg_params : (s.writeReg i v).params = s.params := rfl

@[simp] theorem State.clearRegs_regs : s.clearRegs.regs = RegFile.zero := rfl
@[simp] theorem State.clearRegs_inputs : s.clearRegs.inputs = s.inputs := rfl
@[simp] theorem State.clearRegs_params : s.clearRegs.params = s.params := rfl

@[simp] theorem State.advance_regs : s.advance.regs = s.regs := rfl
@[simp] theorem State.advance_inputs : s.advance.inputs = s.inputs.tail := rfl
@[simp] theorem State.advance_params : s.advance.params = s.params := rfl

@[simp] theorem State.reset_regs : State.reset.regs = RegFile.zero := rfl
@[simp] theorem State.reset_inputs : State.reset.inputs = [] := rfl
@[simp] theorem State.reset_params : State.reset.params = defaultParams := rfl

theorem State.presented_nil (h : s.inputs = []) : s.presented = Cycle.idle := by
  simp [State.presented, h]

theorem State.presented_cons {c : Cycle} {rest : List Cycle} (h : s.inputs = c :: rest) :
    s.presented = c := by
  simp [State.presented, h]

theorem State.advance_cons {c : Cycle} {rest : List Cycle} (h : s.inputs = c :: rest) :
    s.advance = { s with inputs := rest } := by
  simp [State.advance, h]

end Sys2Proof.Machine
end

