-- ==== Sys2Proof/Laws/Regs.lean ====
section
/-! SUPPORT. What the register file's operations do: reading after writing, extensionality, and the frame of a
register write (10_state.md R21, R22). -/

namespace Sys2Proof.Machine

theorem RegFile.read_x0 (r : RegFile) : r.read 0#5 = 0#32 := rfl

theorem RegFile.read_of_ne (r : RegFile) {i : RegIdx} (h : i ≠ 0#5) :
    r.read i = r.words[i.toNat - 1]'(by have := i.isLt; omega) := by
  simp [RegFile.read, h]

theorem RegFile.write_x0 (r : RegFile) (v : Word) : r.write 0#5 v = r := rfl

theorem RegFile.read_write_self (r : RegFile) {i : RegIdx} (h : i ≠ 0#5) (v : Word) :
    (r.write i v).read i = v := by
  simp [RegFile.read, RegFile.write, h]

theorem RegFile.read_write_other (r : RegFile) {i j : RegIdx} (h : j ≠ i) (v : Word) :
    (r.write i v).read j = r.read j := by
  by_cases hi : i = 0#5
  · rw [hi, RegFile.write_x0]
  · by_cases hj : j = 0#5
    · rw [hj, RegFile.read_x0, RegFile.read_x0]
    · have hi' : i.toNat ≠ 0 := fun e => hi (BitVec.eq_of_toNat_eq (by simpa using e))
      have hj' : j.toNat ≠ 0 := fun e => hj (BitVec.eq_of_toNat_eq (by simpa using e))
      have hne : i.toNat - 1 ≠ j.toNat - 1 := fun e => h (BitVec.eq_of_toNat_eq (by omega))
      simp [RegFile.read, RegFile.write, hi, hj, hne]

theorem RegFile.read_zero (i : RegIdx) : RegFile.zero.read i = 0#32 := by
  simp [RegFile.read, RegFile.zero]

/-- Two register files that read alike are equal: the file holds nothing a read cannot show. -/
theorem RegFile.ext_read {r r' : RegFile} (h : ∀ i, r.read i = r'.read i) : r = r' := by
  obtain ⟨v⟩ := r
  obtain ⟨v'⟩ := r'
  congr 1
  apply Vector.ext
  intro k hk
  have hk5 : (BitVec.ofNat 5 (k + 1)).toNat = k + 1 := by simp; omega
  have hne : BitVec.ofNat 5 (k + 1) ≠ 0#5 := fun e => by
    have := congrArg BitVec.toNat e
    rw [hk5] at this
    simp at this
  have := h (BitVec.ofNat 5 (k + 1))
  simpa [RegFile.read_of_ne _ hne, hk5] using this

/-- A register write changes its destination and nothing else; x0 discards it. -/
theorem onlyWrites_writeReg (s : State) (rd : RegIdx) (v : Word) :
    OnlyWrites rd v s (s.writeReg rd v) where
  dest := by
    by_cases h : rd = 0#5
    · simp [h, State.x, RegFile.read_x0]
    · simp [h, State.x, RegFile.read_write_self]
  others r h := by simp [State.x, RegFile.read_write_other _ h]
  inputs := rfl
  params := rfl

/-- The frame determines the state after: `OnlyWrites` leaves nothing open. -/
theorem OnlyWrites.eq_writeReg {rd : RegIdx} {v : Word} {s t : State} (h : OnlyWrites rd v s t) :
    t = s.writeReg rd v := by
  have hw := onlyWrites_writeReg s rd v
  have hr : t.regs = (s.writeReg rd v).regs := RegFile.ext_read fun i => by
    by_cases hi : i = rd
    · subst hi; exact h.dest.trans hw.dest.symm
    · exact (h.others i hi).trans (hw.others i hi).symm
  obtain ⟨_, _, _⟩ := t
  obtain ⟨rfl⟩ := hr
  obtain ⟨rfl⟩ := h.inputs
  obtain ⟨rfl⟩ := h.params
  rfl

/-- Reading any register after a register write, in one equation. -/
theorem State.x_writeReg (s : State) (i j : RegIdx) (v : Word) :
    (s.writeReg i v).x j = if j = i then (if i = 0#5 then 0#32 else v) else s.x j := by
  have h := onlyWrites_writeReg s i v
  split
  · rename_i e; subst e; exact h.dest
  · rename_i e; exact h.others j e

theorem State.writeReg_x0 (s : State) (v : Word) : s.writeReg 0#5 v = s := rfl

end Sys2Proof.Machine
end

