-- ==== Sys2Proof/Laws/Exec.lean ====
section
/-! SUPPORT. Everything an instruction can do, said once: it writes its destination and goes on. And what each
shared operand form and ALU function computes. -/

namespace Sys2Proof.Machine

theorem shiftAmount_eq (b : Word) : shiftAmount b = b.toNat % 32 := by
  simp [shiftAmount, BitVec.extractLsb'_toNat]

theorem shiftAmount_lt (b : Word) : shiftAmount b < 32 := by
  rw [shiftAmount_eq]; omega

theorem shiftAmount_operandShamt (k : BitVec 5) : shiftAmount (operandShamt k) = k.toNat := by
  have := k.isLt
  simp [shiftAmount_eq, operandShamt]; omega

theorem truthWord_toNat (c : Bool) : (truthWord c).toNat = if c = true then 1 else 0 := by
  cases c <;> rfl

/-- Each bit of an arithmetic right shift is the bit that many places higher, or bit 31 past the top (R105). -/
theorem getLsbD_sshiftRight_min (a : Word) (n : Nat) {k : Nat} (hk : k < 32) :
    (a.sshiftRight n).getLsbD k = a.getLsbD (min (k + n) 31) := by
  rw [BitVec.getLsbD_sshiftRight]
  by_cases h : n + k < 32
  · simp [show ¬ 32 ≤ k by omega, h, show min (k + n) 31 = n + k by omega]
  · simp [show ¬ 32 ≤ k by omega, h, show min (k + n) 31 = 31 by omega, BitVec.msb_eq_getLsbD_last]

/-- The result an instruction writes, from the registers of the state it reads. -/
def resultOf (i : Instr) (s : State) : Word :=
  match i with
  | .add _ a b => aluAdd (s.x a) (s.x b)
  | .sub _ a b => aluSub (s.x a) (s.x b)
  | .sll _ a b => aluSll (s.x a) (s.x b)
  | .slt _ a b => aluSlt (s.x a) (s.x b)
  | .sltu _ a b => aluSltu (s.x a) (s.x b)
  | .xor _ a b => aluXor (s.x a) (s.x b)
  | .srl _ a b => aluSrl (s.x a) (s.x b)
  | .sra _ a b => aluSra (s.x a) (s.x b)
  | .or _ a b => aluOr (s.x a) (s.x b)
  | .and _ a b => aluAnd (s.x a) (s.x b)
  | .addi _ a imm => aluAdd (s.x a) imm
  | .slti _ a imm => aluSlt (s.x a) imm
  | .sltiu _ a imm => aluSltu (s.x a) imm
  | .xori _ a imm => aluXor (s.x a) imm
  | .ori _ a imm => aluOr (s.x a) imm
  | .andi _ a imm => aluAnd (s.x a) imm
  | .slli _ a k => aluSll (s.x a) (operandShamt k)
  | .srli _ a k => aluSrl (s.x a) (operandShamt k)
  | .srai _ a k => aluSra (s.x a) (operandShamt k)

/-- Every instruction writes its result to its destination and goes on; it does nothing else (R85, R96). -/
theorem exec_eq_writeReg (i : Instr) (s : State) :
    exec i s = .next (s.writeReg i.rd (resultOf i s)) := by
  cases i <;> rfl

/-- An unclassified word leaves the state or stops with its fault (R91). -/
theorem raiseUnclassified_cases (w : Word) (s : State) :
    (s.params.policy = .ignore ∧ raiseUnclassified w s = .next s) ∨
    (s.params.policy = .trap ∧ raiseUnclassified w s = .fault (.unclassifiedInstruction w)) := by
  unfold raiseUnclassified
  cases s.params.policy <;> simp

end Sys2Proof.Machine
end

