-- ==== Sys2Proof/Laws/PerInstr.lean ====
section
/-! SUPPORT. The per-instruction family `Fields`: the field extractor reads back, from an instruction's word, its
format, its destination and its first source, for every value of `ALT_FUNCT7` (30_encoding.md R54, R58, R60). -/

namespace Sys2Proof.Laws.Fields

/-- The format of an instruction: R for the ten register forms, I for the nine immediate forms (R58). -/
def formatOfInstr : Instr → Format
  | .add _ _ _ => .R
  | .sub _ _ _ => .R
  | .sll _ _ _ => .R
  | .slt _ _ _ => .R
  | .sltu _ _ _ => .R
  | .xor _ _ _ => .R
  | .srl _ _ _ => .R
  | .sra _ _ _ => .R
  | .or _ _ _ => .R
  | .and _ _ _ => .R
  | .addi _ _ _ => .I
  | .slti _ _ _ => .I
  | .sltiu _ _ _ => .I
  | .xori _ _ _ => .I
  | .ori _ _ _ => .I
  | .andi _ _ _ => .I
  | .slli _ _ _ => .I
  | .srli _ _ _ => .I
  | .srai _ _ _ => .I

def Statement (i : Instr) : Prop :=
  ∀ alt : BitVec 7, (extract (encodeWith alt i)).fmt = formatOfInstr i ∧
    (extract (encodeWith alt i)).rd = i.rd ∧ (extract (encodeWith alt i)).rs1 = i.rs1

theorem of_encR {w : Word} (f7 : BitVec 7) (rs2 rs1 : RegIdx) (f3 : BitVec 3) (rd : RegIdx)
    (h : w = encR f7 rs2 rs1 f3 rd) :
    (extract w).fmt = .R ∧ (extract w).rd = rd ∧ (extract w).rs1 = rs1 := by
  subst h
  obtain ⟨hf, hrd, -, hrs1, -, -⟩ := extract_encR f7 rs2 rs1 f3 rd
  exact ⟨hf, hrd, hrs1⟩

theorem of_encI {w : Word} (m : BitVec 12) (rs1 : RegIdx) (f3 : BitVec 3) (rd : RegIdx)
    (h : w = encI m rs1 f3 rd) :
    (extract w).fmt = .I ∧ (extract w).rd = rd ∧ (extract w).rs1 = rs1 := by
  subst h
  obtain ⟨hf, hrd, -, hrs1, -⟩ := extract_encI m rs1 f3 rd
  exact ⟨hf, hrd, hrs1⟩

theorem add (rd rs1 rs2 : RegIdx) : Statement (.add rd rs1 rs2) := fun _ => of_encR _ _ _ _ _ rfl
theorem sub (rd rs1 rs2 : RegIdx) : Statement (.sub rd rs1 rs2) := fun _ => of_encR _ _ _ _ _ rfl
theorem sll (rd rs1 rs2 : RegIdx) : Statement (.sll rd rs1 rs2) := fun _ => of_encR _ _ _ _ _ rfl
theorem slt (rd rs1 rs2 : RegIdx) : Statement (.slt rd rs1 rs2) := fun _ => of_encR _ _ _ _ _ rfl
theorem sltu (rd rs1 rs2 : RegIdx) : Statement (.sltu rd rs1 rs2) := fun _ => of_encR _ _ _ _ _ rfl
theorem xor (rd rs1 rs2 : RegIdx) : Statement (.xor rd rs1 rs2) := fun _ => of_encR _ _ _ _ _ rfl
theorem srl (rd rs1 rs2 : RegIdx) : Statement (.srl rd rs1 rs2) := fun _ => of_encR _ _ _ _ _ rfl
theorem sra (rd rs1 rs2 : RegIdx) : Statement (.sra rd rs1 rs2) := fun _ => of_encR _ _ _ _ _ rfl
theorem or (rd rs1 rs2 : RegIdx) : Statement (.or rd rs1 rs2) := fun _ => of_encR _ _ _ _ _ rfl
theorem and (rd rs1 rs2 : RegIdx) : Statement (.and rd rs1 rs2) := fun _ => of_encR _ _ _ _ _ rfl
theorem addi (rd rs1 : RegIdx) (imm : Word) : Statement (.addi rd rs1 imm) := fun _ => of_encI _ _ _ _ rfl
theorem slti (rd rs1 : RegIdx) (imm : Word) : Statement (.slti rd rs1 imm) := fun _ => of_encI _ _ _ _ rfl
theorem sltiu (rd rs1 : RegIdx) (imm : Word) : Statement (.sltiu rd rs1 imm) := fun _ => of_encI _ _ _ _ rfl
theorem xori (rd rs1 : RegIdx) (imm : Word) : Statement (.xori rd rs1 imm) := fun _ => of_encI _ _ _ _ rfl
theorem ori (rd rs1 : RegIdx) (imm : Word) : Statement (.ori rd rs1 imm) := fun _ => of_encI _ _ _ _ rfl
theorem andi (rd rs1 : RegIdx) (imm : Word) : Statement (.andi rd rs1 imm) := fun _ => of_encI _ _ _ _ rfl
theorem slli (rd rs1 : RegIdx) (shamt : BitVec 5) : Statement (.slli rd rs1 shamt) := fun _ => of_encI _ _ _ _ rfl
theorem srli (rd rs1 : RegIdx) (shamt : BitVec 5) : Statement (.srli rd rs1 shamt) := fun _ => of_encI _ _ _ _ rfl
theorem srai (rd rs1 : RegIdx) (shamt : BitVec 5) : Statement (.srai rd rs1 shamt) := fun _ => of_encI _ _ _ _ rfl

end Sys2Proof.Laws.Fields
end

