-- ==== Sys2Proof/Laws/Step.lean ====
section
/-! SUPPORT. Everything a step can do, said once (40_core_step.md R89, R91, R95; 70_reset_and_hazards.md R141). -/

namespace Sys2Proof.Machine

/-- Accepting a word either executes one instruction, whose only effect is its register write, or takes the
unclassified outcome. -/
theorem acceptWord_cases (w : Word) (s : State) :
    (∃ i, decodeWith s.params.altFunct7 w = .classified i ∧
      acceptWord w s = .next (s.writeReg i.rd (resultOf i s))) ∨
    (dispatchWith s.params.altFunct7 (extract w) = none ∧ acceptWord w s = raiseUnclassified w s) := by
  unfold acceptWord
  rcases decodeWith_cases s.params.altFunct7 w with ⟨op, -, h⟩ | ⟨hd, h⟩
  · exact .inl ⟨_, h, by rw [h]; exact exec_eq_writeReg _ _⟩
  · exact .inr ⟨hd, by rw [h]⟩

/-- A step that answers a next state has cleared the registers, or written one register of a classified word, or
left them alone; in every case one input cycle is consumed and the parameters stand. -/
theorem step_next_cases {s t : State} (h : step s = .next t) :
    (s.presented.rst = true ∧ t = s.advance.clearRegs) ∨
    (s.presented.rst = false ∧ s.presented.instrValid = true ∧
      ∃ i, decodeWith s.params.altFunct7 s.presented.instr = .classified i ∧
        t = s.advance.writeReg i.rd (resultOf i s.advance)) ∨
    (s.presented.rst = false ∧ s.presented.instrValid = true ∧ s.params.policy = .ignore ∧
      dispatchWith s.params.altFunct7 (extract s.presented.instr) = none ∧ t = s.advance) ∨
    (s.presented.rst = false ∧ s.presented.instrValid = false ∧ t = s.advance) := by
  unfold step clockEdge at h
  cases hr : s.presented.rst with
  | true => simp only [hr, if_true, Host.Outcome.next.injEq] at h; exact .inl ⟨rfl, h.symm⟩
  | false =>
    cases hv : s.presented.instrValid with
    | false =>
      simp only [hr, hv, Bool.false_eq_true, if_false, Host.Outcome.next.injEq] at h
      exact .inr (.inr (.inr ⟨rfl, rfl, h.symm⟩))
    | true =>
      simp only [hr, hv, Bool.false_eq_true, if_false, if_true] at h
      rcases acceptWord_cases s.presented.instr s.advance with ⟨i, hi, ha⟩ | ⟨hd, ha⟩
      · rw [ha, Host.Outcome.next.injEq] at h
        exact .inr (.inl ⟨rfl, rfl, i, hi, h.symm⟩)
      · rw [ha] at h
        rcases raiseUnclassified_cases s.presented.instr s.advance with ⟨hp, hc⟩ | ⟨-, hc⟩
        · rw [hc, Host.Outcome.next.injEq] at h
          exact .inr (.inr (.inl ⟨rfl, rfl, hp, hd, h.symm⟩))
        · rw [hc] at h; cases h

/-- A run of any machine whose first step goes on is the run from the next state. -/
theorem coreRun_next (M : Host.Core) (n : Nat) {s t : M.State} (h : M.step s = .next t) :
    M.run (n + 1) s = M.run n t := by
  rw [Host.Core.run, h]

/-- A run of any machine whose first step faults ends with that fault. -/
theorem coreRun_fault (M : Host.Core) (n : Nat) {s : M.State} {f : M.Fault} (h : M.step s = .fault f) :
    M.run (n + 1) s = .fault f := by
  rw [Host.Core.run, h]

theorem run_zero (s : State) : Sys2Proof.core.run 0 s = .next s := rfl

theorem run_succ_next {s t : State} (n : Nat) (h : step s = .next t) :
    Sys2Proof.core.run (n + 1) s = Sys2Proof.core.run n t :=
  coreRun_next Sys2Proof.core n h

theorem run_succ_fault {s : State} {f : Fault} (n : Nat) (h : step s = .fault f) :
    Sys2Proof.core.run (n + 1) s = .fault f :=
  coreRun_fault Sys2Proof.core n h

end Sys2Proof.Machine
end

