-- ==== Sys2Proof/Tests/Slice0.lean ====
section
/-! SUPPORT. Tests of the model against the spec's own vectors (95_test_vectors.md; each test names its section), the
smoke test of WellFormed, and the witnesses of the statements' hypotheses. -/

namespace Sys2Proof.Tests

open Sys2Proof.Machine

/-! ## Helpers -/

/-- The reset state with x18 = a and x19 = b, the registers of the vectors of sections 1 and 2. -/
def vec (a b : Word) : State := (State.reset.writeReg 18#5 a).writeReg 19#5 b

/-- A register after an outcome that goes on. -/
def regAfter (o : Host.Outcome State Fault Refusal) (i : RegIdx) : Option Word :=
  match o with
  | .next t => some (t.x i)
  | _ => none

/-- x20 after one step that presents a word to the vector's state. -/
def x20After (w : Nat) (a b : Word) : Option Word := regAfter (step ((vec a b).withFetchWord 32 w)) 20#5

/-- The fault an outcome ends in. -/
def faultOf (o : Host.Outcome State Fault Refusal) : Option Fault :=
  match o with
  | .fault f => some f
  | _ => none

/-- A state whose next cycles are the given ones. -/
def feeding (cs : List Cycle) : State := { State.reset with inputs := cs }

/-- `feeding` under TRAP. -/
def trapping (cs : List Cycle) : State := (feeding cs).withPolicy .trap

/-! ## Decoding: words of 95_test_vectors.md sections 2.3, 2.5 and 3, operands as its assembly column has them -/

theorem test_decode_add : decode 0x01390A33#32 = .classified (.add 20#5 18#5 19#5) := by decide
theorem test_decode_sub : decode 0x405302B3#32 = .classified (.sub 5#5 6#5 5#5) := by decide
theorem test_decode_sll : decode 0x002114B3#32 = .classified (.sll 9#5 2#5 2#5) := by decide
theorem test_decode_slt : decode 0x001121B3#32 = .classified (.slt 3#5 2#5 1#5) := by decide
theorem test_decode_sltu : decode 0x008035B3#32 = .classified (.sltu 11#5 0#5 8#5) := by decide
theorem test_decode_xor : decode 0x0073C3B3#32 = .classified (.xor 7#5 7#5 7#5) := by decide
theorem test_decode_srl : decode 0x0020D3B3#32 = .classified (.srl 7#5 1#5 2#5) := by decide
theorem test_decode_sra : decode 0x4020D333#32 = .classified (.sra 6#5 1#5 2#5) := by decide
theorem test_decode_or : decode 0x002F6EB3#32 = .classified (.or 29#5 30#5 2#5) := by decide
theorem test_decode_and : decode 0x002F7E33#32 = .classified (.and 28#5 30#5 2#5) := by decide
theorem test_decode_addi : decode 0xFA900093#32 = .classified (.addi 1#5 0#5 0xFFFFFFA9#32) := by decide
theorem test_decode_slti : decode 0xFAA0A513#32 = .classified (.slti 10#5 1#5 0xFFFFFFAA#32) := by decide
theorem test_decode_sltiu : decode 0x0014B513#32 = .classified (.sltiu 10#5 9#5 1#32) := by decide
theorem test_decode_xori : decode 0xFFF2C393#32 = .classified (.xori 7#5 5#5 0xFFFFFFFF#32) := by decide
theorem test_decode_ori : decode 0x4562E293#32 = .classified (.ori 5#5 5#5 0x00000456#32) := by decide
theorem test_decode_andi : decode 0x0FF2F613#32 = .classified (.andi 12#5 5#5 0x000000FF#32) := by decide
theorem test_decode_slli : decode 0x01FF9F93#32 = .classified (.slli 31#5 31#5 31#5) := by decide
theorem test_decode_srli : decode 0x00495A13#32 = .classified (.srli 20#5 18#5 4#5) := by decide
theorem test_decode_srai : decode 0x41FFDF13#32 = .classified (.srai 30#5 31#5 31#5) := by decide

/-- The words of section 2.2 whose dispatch is NONE, each the bits of its row. -/
def unclassifiedWords : List Word :=
  [0x40001033#32, 0x40002033#32, 0x40003033#32, 0x40004033#32, 0x40006033#32, 0x40007033#32, 0x80000033#32] ++
  [0x80005033#32, 0x02000033#32, 0x60000033#32, 0x40001013#32, 0x02001013#32, 0xFE001013#32, 0x42005013#32] ++
  [0x80005013#32, 0x02005013#32, 0x00000000#32, 0xFFFFFFFF#32, 0x00002503#32, 0x00A02023#32, 0x008000EF#32] ++
  [0x00008067#32, 0x00000463#32, 0x123452B7#32, 0x00000297#32, 0x0FF0000F#32, 0x00000073#32, 0x00100073#32] ++
  [0x30002573#32, 0x0000001B#32, 0x0000003B#32, 0x00000001#32, 0x0000000B#32, 0x00000053#32, 0x0000202F#32]

theorem test_decode_unclassified :
    unclassifiedWords.all (fun w => decode w == .unclassified w) = true := by rfl

theorem test_decode_no_subi : decode 0x40090A13#32 = .classified (.addi 20#5 18#5 0x00000400#32) := by decide

theorem test_decodeTableWord : decodeTableWord 32 0x01390A33 = some (.add 20#5 18#5 19#5) := by decide

/-- Section 2.1, the all-ones word: every field is computed whatever the format. -/
theorem test_extract_all_ones : extract 0xFFFFFFFF#32 =
    { fmt := .U, opcode := 0x7F#7, rd := 31#5, funct3 := 7#3, rs1 := 31#5, rs2 := 31#5, funct7 := 0x7F#7,
      imm := 0xFFFFFFFF#32 } := by decide

theorem test_extract_srai : extract 0x40495A13#32 =
    { fmt := .I, opcode := 0x13#7, rd := 20#5, funct3 := 5#3, rs1 := 18#5, rs2 := 4#5, funct7 := 0x20#7,
      imm := 0x00000404#32 } := by decide

/-- R72's own examples. -/
theorem test_encode_add : encode (.add 20#5 18#5 19#5) = 0x01390A33#32 := by decide
theorem test_encode_srai : encode (.srai 20#5 18#5 4#5) = 0x40495A13#32 := by decide

/-! ## WellFormed: an immediate that is no sign-extended 12-bit field is refused, in each form that has one (R56) -/

theorem test_illformed_addi : Instr.wellFormed (.addi 1#5 0#5 0x00000800#32) = false := by decide
theorem test_illformed_slti : Instr.wellFormed (.slti 1#5 0#5 0x00000800#32) = false := by decide
theorem test_illformed_sltiu : Instr.wellFormed (.sltiu 1#5 0#5 0x00000800#32) = false := by decide
theorem test_illformed_xori : Instr.wellFormed (.xori 1#5 0#5 0x00000800#32) = false := by decide
theorem test_illformed_ori : Instr.wellFormed (.ori 1#5 0#5 0x00000800#32) = false := by decide
theorem test_illformed_andi : Instr.wellFormed (.andi 1#5 0#5 0x00000800#32) = false := by decide
theorem test_wellformed_lowest : Instr.wellFormed (.addi 1#5 0#5 0xFFFFF800#32) = true := by decide
theorem test_wellformed_highest : Instr.wellFormed (.addi 1#5 0#5 0x000007FF#32) = true := by decide

/-! ## Results: rows of 95_test_vectors.md sections 2.4 and 2.5 -/

theorem test_add_1 : x20After 0x01390A33 0x00000180#32 0x000120E0#32 = some 0x00012260#32 := by decide
theorem test_add_2 : x20After 0x01390A33 0xFFFFFFFF#32 0x00000001#32 = some 0x00000000#32 := by decide
theorem test_sub_1 : x20After 0x41390A33 0x0000000C#32 0x00000005#32 = some 0x00000007#32 := by decide
theorem test_sub_2 : x20After 0x41390A33 0x00000000#32 0x00000001#32 = some 0xFFFFFFFF#32 := by decide
theorem test_sll_1 : x20After 0x01391A33 0x00000001#32 0x0000001F#32 = some 0x80000000#32 := by decide
theorem test_sll_2 : x20After 0x01391A33 0xFFFFFFFF#32 0xFFFFFFE1#32 = some 0xFFFFFFFE#32 := by decide
theorem test_slt_1 : x20After 0x01392A33 0x00000009#32 0xFFFFFFA9#32 = some 0x00000000#32 := by decide
theorem test_slt_2 : x20After 0x01392A33 0x80000000#32 0x7FFFFFFF#32 = some 0x00000001#32 := by decide
theorem test_sltu_1 : x20After 0x01393A33 0x00000009#32 0xFFFFFFA9#32 = some 0x00000001#32 := by decide
theorem test_sltu_2 : x20After 0x01393A33 0x80000000#32 0x7FFFFFFF#32 = some 0x00000000#32 := by decide
theorem test_xor_1 : x20After 0x01394A33 0x000000FA#32 0x00000F03#32 = some 0x00000FF9#32 := by decide
theorem test_srl_1 : x20After 0x01395A33 0x80000000#32 0x00000021#32 = some 0x40000000#32 := by decide
theorem test_srl_2 : x20After 0x01395A33 0xFFFFFFA9#32 0xFFFFFFFF#32 = some 0x00000001#32 := by decide
theorem test_sra_1 : x20After 0x41395A33 0xFFFFFFA9#32 0x00000002#32 = some 0xFFFFFFEA#32 := by decide
theorem test_sra_2 : x20After 0x41395A33 0xF0000000#32 0xFFFFFFFC#32 = some 0xFFFFFFFF#32 := by decide
theorem test_or_1 : x20After 0x01396A33 0x12340000#32 0x00005678#32 = some 0x12345678#32 := by decide
theorem test_and_1 : x20After 0x01397A33 0xFFFF0000#32 0x12345678#32 = some 0x12340000#32 := by decide
theorem test_addi_1 : x20After 0xFFF90A13 0x00000005#32 0#32 = some 0x00000004#32 := by decide
theorem test_addi_2 : x20After 0x80090A13 0x00000000#32 0#32 = some 0xFFFFF800#32 := by decide
theorem test_slti_1 : x20After 0x80092A13 0xFFFFF7FF#32 0#32 = some 0x00000001#32 := by decide
theorem test_slti_2 : x20After 0xFFF92A13 0x00000000#32 0#32 = some 0x00000000#32 := by decide
theorem test_sltiu_1 : x20After 0xFFF93A13 0x00000005#32 0#32 = some 0x00000001#32 := by decide
theorem test_sltiu_2 : x20After 0x80093A13 0xFFFFF800#32 0#32 = some 0x00000000#32 := by decide
theorem test_xori_1 : x20After 0x80094A13 0x12345678#32 0#32 = some 0xEDCBAE78#32 := by decide
theorem test_xori_2 : x20After 0x7FF94A13 0x12345678#32 0#32 = some 0x12345187#32 := by decide
theorem test_ori_1 : x20After 0x80096A13 0x12340000#32 0#32 = some 0xFFFFF800#32 := by decide
theorem test_ori_2 : x20After 0x5A596A13 0x00000000#32 0#32 = some 0x000005A5#32 := by decide
theorem test_andi_1 : x20After 0x80097A13 0x12345678#32 0#32 = some 0x12345000#32 := by decide
theorem test_andi_2 : x20After 0x0FF97A13 0x12345678#32 0#32 = some 0x00000078#32 := by decide
theorem test_slli_1 : x20After 0x00491A13 0x12345678#32 0#32 = some 0x23456780#32 := by decide
theorem test_slli_2 : x20After 0x01F91A13 0x00000001#32 0#32 = some 0x80000000#32 := by decide
theorem test_srli_1 : x20After 0x00495A13 0x80000000#32 0#32 = some 0x08000000#32 := by decide
theorem test_srli_2 : x20After 0x01F95A13 0x80000000#32 0#32 = some 0x00000001#32 := by decide
theorem test_srai_1 : x20After 0x40495A13 0x80000000#32 0#32 = some 0xF8000000#32 := by decide
theorem test_srai_2 : x20After 0x41F95A13 0x7FFFFFFF#32 0#32 = some 0x00000000#32 := by decide

/-! ## Registers, policies, reset, idle (sections 2.3, 3 and 4) -/

theorem test_x0_write_discarded :
    regAfter (step (State.reset.withFetchWord 32 0x00500013)) 0#5 = some 0#32 := by decide

/-- `add x5, x5, x5` reads the old value (section 2.3, R87). -/
theorem test_same_source_and_destination :
    regAfter (step ((State.reset.writeReg 5#5 0x7FFFFFFF#32).withFetchWord 32 0x005282B3)) 5#5 =
      some 0xFFFFFFFE#32 := by decide

theorem test_accessors :
    RegFile.zero.readChecked 32 = .error (.invalidRegisterIndex 32) ∧
    RegFile.zero.readChecked 31 = .ok 0#32 := ⟨rfl, rfl⟩

/-- P3a: `jal x1, 8` under IGNORE leaves x1 and asserts `illegal`. -/
theorem test_jal_ignored :
    regAfter (step ((State.reset.writeReg 1#5 7#32).withFetchWord 32 0x008000EF)) 1#5 = some 7#32 ∧
    ((State.reset.writeReg 1#5 7#32).withFetchWord 32 0x008000EF).illegal = true := by decide

/-- P3b: `lw x10, 0(x0)` under TRAP stops the run. -/
theorem test_lw_trapped :
    faultOf (step (trapping [Cycle.present 0x00002503#32])) = some (.unclassifiedInstruction 0x00002503#32) := by
  decide

/-- Section 4, cycle 8: reset wins over a valid word, and `illegal` is 0. -/
theorem test_reset_wins :
    regAfter (step { State.reset.writeReg 1#5 1#32 with
      inputs := [{ rst := true, instrValid := true, instr := 0x00108093#32, dbgRaddr := 0#5 }] }) 1#5 =
      some 0#32 := by decide

/-- Section 4, cycle 7: a word that is not valid is not accepted and asserts nothing. -/
theorem test_invalid_not_accepted :
    State.illegal (feeding [{ rst := false, instrValid := false, instr := 0xFFFFFFFF#32, dbgRaddr := 0#5 }]) =
      false := by decide

/-- Section 4, cycles 4 and 5: the dependent word reads the previous word's write, and `dbg_rdata` shows it. -/
theorem test_dependent_words :
    (match Sys2Proof.core.run 2 (feeding [Cycle.present 0x00100093#32, Cycle.present 0x00108133#32,
      { Cycle.idle with dbgRaddr := 2#5 }]) with
      | .next t => State.dbgRdata t
      | _ => 0#32) = 2#32 := by decide

theorem test_register_names :
    registerOfName "x18" = some 18#5 ∧ registerOfName "s2" = some 18#5 ∧ registerOfName "fp" = some 8#5 ∧
    registerOfName "x32" = none := by decide

/-- R74: `sltiu rd, rs1, -1` is encoded signed; 2048 and a shift amount of 32 are rejected. -/
theorem test_assemble :
    assembleWord (.op .sltiu [.reg 20#5, .reg 18#5, .int (-1)]) = some 0xFFF93A13#32 ∧
    assemble (.op .addi [.reg 1#5, .reg 0#5, .int 2048]) = none ∧
    assemble (.op .slli [.reg 1#5, .reg 0#5, .int 32]) = none := by decide

/-- 30_encoding.md R75: li's expansion, and its bounds. -/
theorem test_expand :
    Pseudo.expand (.li 1#5 (-2048)) = some (.addi 1#5 0#5 0xFFFFF800#32) ∧
    Pseudo.expand (.li 1#5 2047) = some (.addi 1#5 0#5 0x7FF#32) ∧
    Pseudo.expand (.li 1#5 (-2049)) = none ∧ Pseudo.expand (.li 1#5 2048) = none ∧
    Pseudo.expand (.not 1#5 2#5) = some (.xori 1#5 2#5 0xFFFFFFFF#32) := by decide

theorem test_outcome_codes :
    (stepWord altFunct7 RegFile.zero 0x00000013#32).code = 0 ∧
    (stepWord altFunct7 RegFile.zero 0x00000000#32).code = 1 ∧
    Fault.code (.invalidRegisterIndex 32) = 2 := by decide

/-! ## Witnesses: a concrete state and operands for the hypotheses of each statement that has any -/

theorem witness_RegisterFileReadsAndWrites : (1#5 ≠ 0#5 ∧ 31#5 ≠ 0#5) ∧ (2#5 : RegIdx) ≠ 1#5 := by decide

theorem witness_CheckedAccessorsRejectWideIndices : 31 < 32 ∧ 31 < 255 ∧ 31 ≤ 31 ∧ 0 ≤ 31 := by decide

theorem witness_WritesToX0ChangeNothing : (Instr.srai 0#5 31#5 31#5).rd = 0#5 := rfl

theorem witness_DecodeOfEncodeIsTheInstruction :
    0b1000000#7 ≠ 0#7 ∧ (Instr.andi 31#5 31#5 0xFFFFF800#32).wellFormed = true := by decide

theorem witness_EncodeOfDecodeIsTheWord :
    decodeWith 0b1000000#7 0x80005033#32 = .classified (.sra 0#5 0#5 0#5) := by decide

/-- One word meeting the mask and match of each per-instruction statement: its decode test's word. -/
theorem witness_masks :
    0x01390A33#32 &&& 0xFE00707F#32 = 0x00000033#32 ∧
    0x405302B3#32 &&& 0xFE00707F#32 = 0x40000033#32 ∧
    0x002114B3#32 &&& 0xFE00707F#32 = 0x00001033#32 ∧
    0x001121B3#32 &&& 0xFE00707F#32 = 0x00002033#32 ∧
    0x008035B3#32 &&& 0xFE00707F#32 = 0x00003033#32 ∧
    0x0073C3B3#32 &&& 0xFE00707F#32 = 0x00004033#32 ∧
    0x0020D3B3#32 &&& 0xFE00707F#32 = 0x00005033#32 ∧
    0x4020D333#32 &&& 0xFE00707F#32 = 0x40005033#32 ∧
    0x002F6EB3#32 &&& 0xFE00707F#32 = 0x00006033#32 ∧
    0x002F7E33#32 &&& 0xFE00707F#32 = 0x00007033#32 ∧
    0xFA900093#32 &&& 0x0000707F#32 = 0x00000013#32 ∧
    0xFAA0A513#32 &&& 0x0000707F#32 = 0x00002013#32 ∧
    0x0014B513#32 &&& 0x0000707F#32 = 0x00003013#32 ∧
    0xFFF2C393#32 &&& 0x0000707F#32 = 0x00004013#32 ∧
    0x4562E293#32 &&& 0x0000707F#32 = 0x00006013#32 ∧
    0x0FF2F613#32 &&& 0x0000707F#32 = 0x00007013#32 ∧
    0x01FF9F93#32 &&& 0xFE00707F#32 = 0x00001013#32 ∧
    0x00495A13#32 &&& 0xFE00707F#32 = 0x00005013#32 ∧
    0x41FFDF13#32 &&& 0xFE00707F#32 = 0x40005013#32 := by
  decide

theorem witness_WordsOutsideTheTableAreUnclassified :
    (bitsAt 0x00000073#32 0 7 ≠ 0b0110011#7 ∧ bitsAt 0x00000073#32 0 7 ≠ 0b0010011#7) ∧
    (bitsAt 0x02000033#32 0 7 = 0b0110011#7 ∧ bitsAt 0x02000033#32 25 7 ≠ 0#7 ∧
      bitsAt 0x02000033#32 25 7 ≠ altFunct7) ∧
    (bitsAt 0x40001033#32 25 7 = altFunct7 ∧ bitsAt 0x40001033#32 12 3 ≠ 0b000#3 ∧
      bitsAt 0x40001033#32 12 3 ≠ 0b101#3) ∧
    (bitsAt 0x40001013#32 0 7 = 0b0010011#7 ∧ bitsAt 0x40001013#32 12 3 = 0b001#3 ∧
      bitsAt 0x40001013#32 25 7 ≠ 0#7) ∧
    (bitsAt 0x42005013#32 12 3 = 0b101#3 ∧ bitsAt 0x42005013#32 25 7 ≠ 0#7 ∧
      bitsAt 0x42005013#32 25 7 ≠ altFunct7) := by decide

theorem witness_ByteImagesDecodeInEitherOrder :
    decode (wordOfBytes .little 0x33#8 0x0A#8 0x39#8 0x01#8) = .classified (.add 20#5 18#5 19#5) ∧
    decode (wordOfBytes .big 0x33#8 0x0A#8 0x39#8 0x01#8) = .unclassified 0x330A3901#32 ∧
    ([0x33#8, 0x0A#8, 0x39#8] : List Byte).length < 4 := by decide

theorem witness_SubUndoesAdd : (20#5 : RegIdx) ≠ 0#5 ∧ (20#5 : RegIdx) ≠ 19#5 := by decide

theorem witness_ShiftsUseOnlyTheLowFiveBits :
    (vec 1#32 24#32).x 18#5 = (vec 1#32 56#32).x 18#5 ∧
    ((vec 1#32 24#32).x 19#5).toNat % 32 = ((vec 1#32 56#32).x 19#5).toNat % 32 ∧
    ((vec 1#32 32#32).x 19#5).toNat % 32 = 0 ∧ (20#5 : RegIdx) ≠ 0#5 := by decide

theorem witness_ImmediateFormsAreTheRegisterForms :
    (vec 1#32 0xFFFFF800#32).x 19#5 = 0xFFFFF800#32 ∧
    ((vec 1#32 63#32).x 19#5).toNat % 32 = (31#5 : BitVec 5).toNat := by decide

theorem witness_PseudoInstructionsDoWhatTheTableSays :
    ((-2048 : Int) ≤ -2048 ∧ (-2048 : Int) ≤ 2047) ∧ ((-2048 : Int) ≤ 2047 ∧ (2047 : Int) ≤ 2047) ∧
    ((-2049 : Int) < -2048 ∨ (2047 : Int) < -2049) ∧ ((2048 : Int) < -2048 ∨ (2047 : Int) < 2048) ∧
    Pseudo.expand (.zextB 31#5 0#5) = some (.andi 31#5 0#5 255#32) := by decide

theorem witness_AssemblyLinesRoundTrip :
    (Instr.xori 1#5 2#5 0x000007FF#32).wellFormed = true ∧
    assemble (.op .srai [.reg 1#5, .reg 2#5, .int 31]) = some (.srai 1#5 2#5 31#5) ∧
    Operation.sltiu ∈ [Operation.addi, .slti, .sltiu, .xori, .ori, .andi] ∧
    ((-2049 : Int) < -2048 ∨ (2047 : Int) < -2049) ∧ ((2048 : Int) < -2048 ∨ (2047 : Int) < 2048) ∧
    Operation.srli ∈ [Operation.slli, .srli, .srai] ∧
    ((-1 : Int) < 0 ∨ (31 : Int) < -1) ∧ ((32 : Int) < 0 ∨ (31 : Int) < 32) := by decide

theorem witness_StepRunsTheDecodedInstruction :
    (feeding [Cycle.present 0x00100093#32]).inputs = Cycle.present 0x00100093#32 :: [] ∧
    (Cycle.present 0x00100093#32).rst = false ∧ (Cycle.present 0x00100093#32).instrValid = true ∧
    decodeWith (feeding []).params.altFunct7 0x00100093#32 = .classified (.addi 1#5 0#5 1#32) ∧
    decodeWith State.reset.params.altFunct7 (tableWord 32 0x00100093) = .classified (.addi 1#5 0#5 1#32) := by
  decide

theorem witness_EveryWordIsExactlyItsRow :
    matchesRow 0x40495A13#32 .srai = true ∧ matchesRow 0x40495A13#32 .srli = false := by decide

theorem witness_UnclassifiedWordsChangeNothing :
    (feeding [Cycle.present 0#32]).inputs = Cycle.present 0#32 :: [] ∧
    (Cycle.present 0#32).rst = false ∧ (Cycle.present 0#32).instrValid = true ∧
    decodeWith (feeding [Cycle.present 0#32]).params.altFunct7 0#32 = .unclassified 0#32 ∧
    (feeding [Cycle.present 0#32]).params.policy = .ignore ∧
    (trapping [Cycle.present 0#32]).params.policy = .trap := by decide

theorem witness_ExcludedInstructionClassesChangeNothing :
    (feeding [Cycle.present 0x008000EF#32]).inputs = Cycle.present 0x008000EF#32 :: [] ∧
    (Cycle.present 0x008000EF#32).rst = false ∧ (Cycle.present 0x008000EF#32).instrValid = true ∧
    (feeding [Cycle.present 0x008000EF#32]).params.policy = .ignore ∧
    bitsAt (Cycle.present 0x008000EF#32).instr 0 7 ∈
      [0b0000011#7, 0b0100011#7, 0b1100011#7, 0b1101111#7, 0b1100111#7] ++
      [0b0001111#7, 0b0101111#7, 0b1110011#7, 0b0110111#7, 0b0010111#7] := by decide

theorem witness_IdleEdgesChangeNothing :
    State.reset.inputs = [] ∧ (feeding [Cycle.idle]).inputs = Cycle.idle :: [] ∧ Cycle.idle.rst = false ∧ Cycle.idle.instrValid = false := by decide

theorem witness_ResetEdgesClearTheRegisters :
    (feeding [{ Cycle.present 0x00100093#32 with rst := true }]).inputs =
      { Cycle.present 0x00100093#32 with rst := true } :: [] ∧
    ({ Cycle.present 0x00100093#32 with rst := true } : Cycle).rst = true := ⟨rfl, rfl⟩

theorem witness_IllegalOutputIsItsEquation :
    (feeding [Cycle.present 0#32]).params.altFunct7 = altFunct7 ∧
    (feeding [Cycle.present 0#32]).illegal = true := by decide

theorem witness_ObservationPortShowsTheWriteAfterTheEdge :
    (feeding [Cycle.present 0x00100093#32, { Cycle.idle with dbgRaddr := 1#5 }]).inputs =
      Cycle.present 0x00100093#32 :: { Cycle.idle with dbgRaddr := 1#5 } :: [] ∧
    decodeWith (feeding []).params.altFunct7 0x00100093#32 = .classified (.addi 1#5 0#5 1#32) := by decide

theorem witness_StepReadsOnlyTheWordAndTheRegisters :
    (feeding [Cycle.idle]).regs = (feeding [{ Cycle.idle with dbgRaddr := 9#5 }]).regs ∧
    (feeding [Cycle.idle]).params = (feeding [{ Cycle.idle with dbgRaddr := 9#5 }]).params ∧
    (feeding [Cycle.idle]).presented.rst = (feeding [{ Cycle.idle with dbgRaddr := 9#5 }]).presented.rst ∧
    (feeding [Cycle.idle]).presented.instrValid =
      (feeding [{ Cycle.idle with dbgRaddr := 9#5 }]).presented.instrValid ∧
    (feeding [Cycle.idle]).presented.instr = (feeding [{ Cycle.idle with dbgRaddr := 9#5 }]).presented.instr ∧
    step (feeding [Cycle.idle]) = .next (feeding []) := ⟨rfl, rfl, rfl, rfl, rfl, rfl⟩

theorem witness_AtMostOneRegisterChangesPerWord :
    acceptWord 0x00100093#32 State.reset = .next (State.reset.writeReg 1#5 1#32) ∧
    (2#5 : RegIdx) ≠ bitsAt 0x00100093#32 7 5 ∧
    acceptWord 0#32 State.reset = .next State.reset ∧
    unclassifiedWith State.reset.params.altFunct7 0#32 = true := ⟨rfl, by decide, rfl, rfl⟩

theorem witness_StepStopsOnlyOnTrappedUnclassifiedWords :
    (trapping [Cycle.present 0#32]).params.policy = .trap ∧ (trapping [Cycle.present 0#32]).illegal = true ∧
    (trapping [Cycle.present 0x00000013#32]).illegal = false := by decide

theorem witness_StepKeepsParametersAndConsumesOneCycle :
    Inv defaultParams State.reset ∧ step State.reset = .next State.reset := ⟨⟨rfl, rfl⟩, rfl⟩

theorem witness_MachineAgreesWithTheDatapath :
    stepWord altFunct7 RegFile.zero 0x00100093#32 = .executed (RegFile.zero.write 1#5 1#32) ∧
    stepWord altFunct7 RegFile.zero 0#32 = .unclassified 0#32 := by decide

theorem witness_RunTakesEffectInOrder :
    (feeding [Cycle.present 0#32, Cycle.idle]).inputs = [Cycle.present 0#32] ++ [Cycle.idle] ∧
    (feeding [Cycle.present 0#32, Cycle.idle]).params.policy = .ignore := by decide

theorem witness_TrapRunsAreIgnoreRuns :
    Sys2Proof.core.run 1 ((feeding [Cycle.present 0x00000013#32]).withPolicy .trap) = .next (trapping []) := rfl

theorem witness_TrapRunsAreSafeExactlyWhenClean :
    (Cycle.present 0x00000013#32).clean altFunct7 = true ∧ (Cycle.present 0#32).clean altFunct7 = false := by
  decide

end Sys2Proof.Tests
end

namespace Sys2Proof.Machine

/-! ## The register a word names, and what accepting a word can do to the state (00_scope.md R8) -/

/-- The extractor's slice of a word is the same bits by plain arithmetic (R13). -/
theorem extractLsb'_eq_bitsAt (w : Word) (lo len : Nat) : w.extractLsb' lo len = bitsAt w lo len := by
  apply BitVec.eq_of_toNat_eq
  simp [bitsAt, BitVec.extractLsb'_toNat, Nat.shiftRight_eq_div_pow]

/-- A classified word's destination is the register its bits 11..7 name (R54, R60). -/
theorem rd_of_decodeWith_classified {alt : BitVec 7} {w : Word} {i : Instr}
    (h : decodeWith alt w = .classified i) : i.rd = bitsAt w 7 5 := by
  rcases decodeWith_cases alt w with ⟨op, -, hop⟩ | ⟨-, hun⟩
  · obtain rfl : op.build (extract w) = i := Decoded.classified.inj (hop.symm.trans h)
    calc (op.build (extract w)).rd = (extract w).rd := build_rd op _
      _ = bitsAt w 7 5 := extractLsb'_eq_bitsAt w 7 5
  · rw [hun] at h; cases h

/-- A word is unclassified exactly where the decoder finds no instruction in it (R66, R67). -/
theorem unclassifiedWith_iff {alt : BitVec 7} {w : Word} :
    unclassifiedWith alt w = true ↔ decodeWith alt w = .unclassified w := by
  rcases decodeWith_cases alt w with ⟨op, hd, h⟩ | ⟨hd, h⟩ <;> simp [unclassifiedWith, hd, h]

/-- Accepting a word and going on either writes one register of a classified word, the one its bits 11..7 name,
or leaves the state of an unclassified word as it is (R8, R85, R90). -/
theorem acceptWord_next_cases {w : Word} {s t : State} (h : acceptWord w s = .next t) :
    (unclassifiedWith s.params.altFunct7 w = false ∧ ∃ v, t = s.writeReg (bitsAt w 7 5) v) ∨
    (unclassifiedWith s.params.altFunct7 w = true ∧ t = s) := by
  rcases acceptWord_cases w s with ⟨i, hi, ha⟩ | ⟨hd, ha⟩
  · refine .inl ⟨?_, resultOf i s, ?_⟩
    · rw [Bool.eq_false_iff, Ne, unclassifiedWith_iff, hi]; simp
    · rw [← rd_of_decodeWith_classified hi]
      exact (Host.Outcome.next.inj (ha.symm.trans h)).symm
  · refine .inr ⟨by simp [unclassifiedWith, hd], ?_⟩
    rcases raiseUnclassified_cases w s with ⟨-, hr⟩ | ⟨-, hr⟩
    · exact (Host.Outcome.next.inj ((ha.trans hr).symm.trans h)).symm
    · rw [ha, hr] at h; cases h

/-- Settles O46: a word that goes on is one register write at most, whose frame is `onlyWrites_writeReg`. -/
theorem atMostOneRegisterChangesPerWord : Obligations.AtMostOneRegisterChangesPerWord := by
  intro w s t h
  rcases acceptWord_next_cases h with ⟨hc, v, rfl⟩ | ⟨-, rfl⟩
  · have hw := onlyWrites_writeReg s (bitsAt w 7 5) v
    exact ⟨hw.others, hw.inputs, hw.params, fun hu => by rw [hc] at hu; cases hu⟩
  · exact ⟨fun _ _ => rfl, rfl, rfl, fun _ _ => rfl⟩

end Sys2Proof.Machine


namespace Sys2Proof.Machine

/-! ## The register file (10_state.md R21, R22) -/

/-- Settles O2: its four clauses are the register file's own read and write laws, index 0 apart. -/
theorem registerFileReadsAndWrites : Obligations.RegisterFileReadsAndWrites := by
  intro r i j v
  exact ⟨r.read_x0, r.write_x0 v, fun hi => r.read_write_self hi v, fun hj => r.read_write_other hj v⟩

end Sys2Proof.Machine

namespace Sys2Proof.Machine

/-! ## The extractor's fields by plain arithmetic, its immediate, and the format (30_encoding.md R54 to R58) -/

/-- A slice of a word by plain arithmetic on unsigned values (R13). -/
theorem toNat_extractLsb' (w : Word) (lo len : Nat) :
    (w.extractLsb' lo len).toNat = w.toNat / 2 ^ lo % 2 ^ len := by
  rw [BitVec.extractLsb'_toNat, Nat.shiftRight_eq_div_pow]

/-- The 7 bits above bit 24 are all that the quotient by `2 ^ 25` holds (R54). -/
theorem toNat_extractLsb'_25_7 (w : Word) : (w.extractLsb' 25 7).toNat = w.toNat / 2 ^ 25 := by
  have hw := w.isLt
  rw [toNat_extractLsb']
  exact Nat.mod_eq_of_lt (by omega)

/-- Below the sign, bits of the immediate are those of the word 20 places up (R56). -/
theorem immField_getLsbD_of_lt (w : Word) {k : Nat} (hk : k < 11) :
    (immField w).getLsbD k = w.getLsbD (20 + k) := by
  rw [immField_getLsbD w (by omega), if_pos (by omega)]

/-- From bit 11 on, the immediate holds the word's sign bit (R56). -/
theorem immField_getLsbD_of_le (w : Word) {k : Nat} (h11 : 11 ≤ k) (hk : k < 32) :
    (immField w).getLsbD k = w.getLsbD 31 := by
  rw [immField_getLsbD w hk]
  split
  · obtain rfl : k = 11 := by omega
    rfl
  · rfl

/-- Sign extension keeps the signed value, so the immediate has the range of its 12-bit field (R56). -/
theorem immField_toInt_bounds (w : Word) : -2048 ≤ (immField w).toInt ∧ (immField w).toInt ≤ 2047 := by
  have hext : (immField w).toInt = (w.extractLsb' 20 12).toInt := BitVec.toInt_signExtend_of_le (by omega)
  have hlo := BitVec.le_toInt (w.extractLsb' 20 12)
  have hhi := BitVec.toInt_lt (x := w.extractLsb' 20 12)
  omega

/-- Settles O5: each slice by arithmetic, then the immediate's bits below and from bit 11, then its range. -/
theorem extractedFieldsAreTheWordsBits : Obligations.ExtractedFieldsAreTheWordsBits := by
  intro w
  have hopcode : (extract w).opcode.toNat = w.toNat % 2 ^ 7 := by
    rw [← Nat.div_one w.toNat]
    exact toNat_extractLsb' w 0 7
  exact ⟨hopcode, toNat_extractLsb' w 7 5, toNat_extractLsb' w 12 3, toNat_extractLsb' w 15 5,
    toNat_extractLsb' w 20 5, toNat_extractLsb'_25_7 w, fun _ hk => immField_getLsbD_of_lt w hk,
    fun _ h11 hk => immField_getLsbD_of_le w h11 hk, immField_toInt_bounds w⟩

theorem formatOf_eq_R_iff {op : BitVec 7} : formatOf op = .R ↔ op = opcodeOp := by
  unfold formatOf
  split_ifs with hR hI <;> simp [hR]

/-- The immediate form is tested second, which decides nothing: the two opcodes differ (R9, R58). -/
theorem formatOf_eq_I_iff {op : BitVec 7} : formatOf op = .I ↔ op = opcodeOpImm := by
  have hne : opcodeOp ≠ opcodeOpImm := by decide
  unfold formatOf
  split_ifs with hR hI
  · simp [hR, hne]
  · simp [hI]
  · simp [hI]

theorem formatOf_eq_U_iff {op : BitVec 7} : formatOf op = .U ↔ op ≠ opcodeOp ∧ op ≠ opcodeOpImm := by
  unfold formatOf
  split_ifs with hR hI
  · simp [hR]
  · simp [hI]
  · simp [hR, hI]

/-- Settles O6: the format is `formatOf` of the opcode, and the opcode is bits 6..0. -/
theorem formatIsByOpcodeAlone : Obligations.FormatIsByOpcodeAlone := by
  intro w
  have hopcode : (extract w).opcode = bitsAt w 0 7 := extractLsb'_eq_bitsAt w 0 7
  have hfmt : (extract w).fmt = formatOf (bitsAt w 0 7) := congrArg formatOf hopcode
  rw [hfmt]
  exact ⟨hopcode, formatOf_eq_R_iff, formatOf_eq_I_iff, formatOf_eq_U_iff⟩

end Sys2Proof.Machine


namespace Sys2Proof.Machine

/-! ## The datapath's step against accepting a word (40_core_step.md R84, R89) -/

/-- The column of base operations holds register forms only (R61). -/
theorem formatOfInstr_build_baseColumn (funct3 : BitVec 3) (d : Fields) :
    Laws.Fields.formatOfInstr ((baseColumn funct3).build d) = .R := by
  unfold baseColumn
  split <;> rfl

/-- So does the alternate column (R61). -/
theorem formatOfInstr_build_of_altColumn {funct3 : BitVec 3} {op : Operation}
    (h : altColumn funct3 = some op) (d : Fields) : Laws.Fields.formatOfInstr (op.build d) = .R := by
  unfold altColumn at h
  split at h <;> cases h <;> rfl

theorem formatOfInstr_build_of_dispatchR {alt funct7 : BitVec 7} {funct3 : BitVec 3} {op : Operation}
    (h : dispatchR alt funct7 funct3 = some op) (d : Fields) :
    Laws.Fields.formatOfInstr (op.build d) = .R := by
  unfold dispatchR at h
  split_ifs at h with hbase halt
  · obtain rfl := Option.some.inj h
    exact formatOfInstr_build_baseColumn funct3 d
  · exact formatOfInstr_build_of_altColumn h d

/-- The two shift rows are the ones whose selector is compared as well (R64). -/
theorem formatOfInstr_build_of_dispatchI {alt hi : BitVec 7} {funct3 : BitVec 3} {op : Operation}
    (h : dispatchI alt hi funct3 = some op) (d : Fields) :
    Laws.Fields.formatOfInstr (op.build d) = .I := by
  unfold dispatchI at h
  split at h
  case h_6 => split_ifs at h; cases h; rfl
  case h_7 => split_ifs at h <;> cases h <;> rfl
  all_goals cases h; rfl

/-- Dispatch answers operations of the format extracted only: the operation alone tells which operand B the
datapath selects (R65, R83). -/
theorem formatOfInstr_build_of_dispatchWith {alt : BitVec 7} {d : Fields} {op : Operation}
    (h : dispatchWith alt d = some op) : Laws.Fields.formatOfInstr (op.build d) = d.fmt := by
  unfold dispatchWith at h
  cases hf : d.fmt with
  | R => rw [hf] at h; exact formatOfInstr_build_of_dispatchR h d
  | I => rw [hf] at h; exact formatOfInstr_build_of_dispatchI h d
  | U => rw [hf] at h; cases h

/-- The shift amount field of an immediate shifts as the whole immediate does: the ALU masks the selector bits
above it (R97, R120). -/
theorem shiftAmount_operandShamt_low (b : Word) : shiftAmount (operandShamt (b.extractLsb' 0 5)) = shiftAmount b :=
  shiftAmount_operandShamt _

/-- The result of a dispatched operation is the ALU's, at the function the operation selects, on the datapath's two
operands (R82, R83, R84). -/
theorem resultOf_build {alt : BitVec 7} {d : Fields} {op : Operation} (h : dispatchWith alt d = some op)
    (s : State) :
    resultOf (op.build d) s =
      alu (aluFnOf op) (s.regs.read d.rs1) (if d.fmt = .R then s.regs.read d.rs2 else d.imm) := by
  rw [← formatOfInstr_build_of_dispatchWith h]
  cases op with
  | slli => exact congrArg (s.x d.rs1 <<< ·) (shiftAmount_operandShamt_low d.imm)
  | srli => exact congrArg (s.x d.rs1 >>> ·) (shiftAmount_operandShamt_low d.imm)
  | srai => exact congrArg (s.x d.rs1).sshiftRight (shiftAmount_operandShamt_low d.imm)
  | _ => rfl

/-- The datapath's step of a word that dispatches to an operation writes that operation's result to the word's
destination (R85, R89). -/
theorem stepWord_of_dispatch_some {w : Word} {s : State} {op : Operation}
    (h : dispatchWith s.params.altFunct7 (extract w) = some op) :
    stepWord s.params.altFunct7 s.regs w =
      .executed (s.regs.write (extract w).rd (resultOf (op.build (extract w)) s)) := by
  rw [resultOf_build h]
  simp only [stepWord, h, RegFile.writePort, if_true]

theorem stepWord_of_dispatch_none {alt : BitVec 7} {w : Word} (h : dispatchWith alt (extract w) = none)
    (r : RegFile) : stepWord alt r w = .unclassified w := by
  simp only [stepWord, h]

/-- The datapath's step and accepting the word end the same way: both execute, with the same register file, or both
find the word unclassified (R89, R91). -/
theorem stepWord_acceptWord_cases (w : Word) (s : State) :
    (∃ r, stepWord s.params.altFunct7 s.regs w = .executed r ∧ acceptWord w s = .next { s with regs := r }) ∨
    (stepWord s.params.altFunct7 s.regs w = .unclassified w ∧ acceptWord w s = raiseUnclassified w s) := by
  rcases decodeWith_cases s.params.altFunct7 w with ⟨op, hd, hdec⟩ | ⟨hd, hdec⟩
  · refine .inl ⟨_, stepWord_of_dispatch_some hd, ?_⟩
    calc acceptWord w s = exec (op.build (extract w)) s := by rw [acceptWord, hdec]
      _ = .next (s.writeReg (op.build (extract w)).rd (resultOf (op.build (extract w)) s)) :=
          exec_eq_writeReg _ s
      _ = .next (s.writeReg (extract w).rd (resultOf (op.build (extract w)) s)) := by rw [build_rd]
  · exact .inr ⟨stepWord_of_dispatch_none hd s.regs, by rw [acceptWord, hdec]⟩

/-- Settles O50: of the two joint endings, the datapath's outcome picks the one meant. -/
theorem machineAgreesWithTheDatapath : Obligations.MachineAgreesWithTheDatapath := by
  intro s w
  rcases stepWord_acceptWord_cases w s with ⟨r, hstep, hacc⟩ | ⟨hstep, hacc⟩
  · refine ⟨fun r' h => ?_, fun u h => ?_⟩
    · obtain rfl : r = r' := WordOutcome.executed.inj (hstep.symm.trans h)
      exact hacc
    · rw [hstep] at h; cases h
  · refine ⟨fun r h => ?_, fun u h => ?_⟩
    · rw [hstep] at h; cases h
    · exact ⟨(WordOutcome.unclassified.inj (hstep.symm.trans h)).symm, hacc⟩

end Sys2Proof.Machine


namespace Sys2Proof.Machine

/-! ## The words of a row with the wide mask (30_encoding.md R65, R71) -/

/-- Dispatch sees no bit outside the mask `0xFE00707F`: a word that agrees under it with `v` dispatches as `v`. -/
theorem dispatchWith_of_wideMask {alt : BitVec 7} {w v : Word} (h : w &&& 0xFE00707F#32 = v) :
    dispatchWith alt (extract w) = dispatchWith alt (extract v) := by
  have hv : v &&& 0xFE00707F#32 = v := by rw [← h, BitVec.and_assoc, BitVec.and_self]
  obtain ⟨hopcode, hfunct3, hfunct7⟩ := (and_wideMask_eq_iff w v hv).1 h
  rw [dispatchWith_extract, dispatchWith_extract, hopcode, hfunct3, hfunct7]

theorem decodeWith_of_dispatch {alt : BitVec 7} {w : Word} {op : Operation}
    (h : dispatchWith alt (extract w) = some op) :
    decodeWith alt w = .classified (op.build (extract w)) := by
  simp only [decodeWith, h]

/-- A word whose row's match dispatches to a register form decodes to that form of the registers its fields name
(R54, R71). -/
theorem decode_registerForm_of_wideMask {w v : Word} {op : Operation} {form : RegIdx → RegIdx → RegIdx → Instr}
    (h : w &&& 0xFE00707F#32 = v) (hop : dispatchWith altFunct7 (extract v) = some op)
    (hform : ∀ d, op.build d = form d.rd d.rs1 d.rs2) :
    decode w = .classified (form (bitsAt w 7 5) (bitsAt w 15 5) (bitsAt w 20 5)) := by
  have hfields : op.build (extract w) = form (bitsAt w 7 5) (bitsAt w 15 5) (bitsAt w 20 5) := by
    rw [hform, ← extractLsb'_eq_bitsAt, ← extractLsb'_eq_bitsAt, ← extractLsb'_eq_bitsAt]
    rfl
  rw [decode, decodeWith_of_dispatch ((dispatchWith_of_wideMask h).trans hop), hfields]

/-! ## What an instruction does, from a property of its result (40_core_step.md R85) -/

/-- Every instruction executes in every state and changes nothing but its destination, which takes its result. -/
theorem executes_of_resultOf (i : Instr) (s : State) {result : Word → Prop} (h : result (resultOf i s)) :
    Executes i i.rd s result :=
  ⟨_, _, exec_eq_writeReg i s, onlyWrites_writeReg s i.rd (resultOf i s), h⟩

/-! ## The ALU's functions by plain arithmetic and bit by bit (41_alu_register.md R97 to R107) -/

section Alu

variable (a b : Word)

theorem aluAdd_toNat : (aluAdd a b).toNat = (a.toNat + b.toNat) % 2 ^ 32 := BitVec.toNat_add a b

/-- The difference wraps as an integer: a borrow past bit 31 is lost (R99). -/
theorem aluSub_toNat : ((aluSub a b).toNat : Int) = ((a.toNat : Int) - (b.toNat : Int)) % 2 ^ 32 := by
  have ha := a.isLt
  have hb := b.isLt
  rw [aluSub, BitVec.toNat_sub]
  omega

theorem aluSll_toNat : (aluSll a b).toNat = a.toNat * 2 ^ (b.toNat % 32) % 2 ^ 32 := by
  rw [aluSll, BitVec.toNat_shiftLeft, Nat.shiftLeft_eq, shiftAmount_eq]

theorem aluSlt_toNat : (aluSlt a b).toNat = if a.toInt < b.toInt then 1 else 0 := by
  simp only [aluSlt, truthWord_toNat, lessSigned, decide_eq_true_eq]

theorem aluSltu_toNat : (aluSltu a b).toNat = if a.toNat < b.toNat then 1 else 0 := by
  simp only [aluSltu, truthWord_toNat, lessUnsigned, decide_eq_true_eq]

theorem aluXor_getLsbD (k : Nat) : (aluXor a b).getLsbD k = (a.getLsbD k != b.getLsbD k) := by
  rw [aluXor, BitVec.getLsbD_xor, Bool.bne_eq_xor]

theorem aluSrl_toNat : (aluSrl a b).toNat = a.toNat / 2 ^ (b.toNat % 32) := by
  rw [aluSrl, BitVec.toNat_ushiftRight, Nat.shiftRight_eq_div_pow, shiftAmount_eq]

theorem aluSra_getLsbD {k : Nat} (hk : k < 32) :
    (aluSra a b).getLsbD k = a.getLsbD (min (k + b.toNat % 32) 31) := by
  rw [aluSra, getLsbD_sshiftRight_min a _ hk, shiftAmount_eq]

theorem aluOr_getLsbD (k : Nat) : (aluOr a b).getLsbD k = (a.getLsbD k || b.getLsbD k) :=
  BitVec.getLsbD_or

theorem aluAnd_getLsbD (k : Nat) : (aluAnd a b).getLsbD k = (a.getLsbD k && b.getLsbD k) :=
  BitVec.getLsbD_and

end Alu

/-! ## The ten register-register instructions (41_alu_register.md R98 to R107) -/

/-- Settles O13: the row's match dispatches to ADD, and the ALU's sum wraps. -/
theorem addWritesTheWrappedSum : Obligations.AddWritesTheWrappedSum :=
  ⟨fun _ h => decode_registerForm_of_wideMask (op := .add) h rfl fun _ => rfl,
    fun rd rs1 rs2 s => executes_of_resultOf (.add rd rs1 rs2) s (aluAdd_toNat _ _)⟩

/-- Settles O14: the row's match dispatches to SUB, and the ALU's difference wraps. -/
theorem subWritesTheWrappedDifference : Obligations.SubWritesTheWrappedDifference :=
  ⟨fun _ h => decode_registerForm_of_wideMask (op := .sub) h rfl fun _ => rfl,
    fun rd rs1 rs2 s => executes_of_resultOf (.sub rd rs1 rs2) s (aluSub_toNat _ _)⟩

/-- Settles O15: the row's match dispatches to SLL, and the ALU multiplies by the power of two modulo 2^32. -/
theorem sllShiftsLeftByLowFiveBits : Obligations.SllShiftsLeftByLowFiveBits :=
  ⟨fun _ h => decode_registerForm_of_wideMask (op := .sll) h rfl fun _ => rfl,
    fun rd rs1 rs2 s => executes_of_resultOf (.sll rd rs1 rs2) s (aluSll_toNat _ _)⟩

/-- Settles O16: the row's match dispatches to SLT, and the ALU compares signed values. -/
theorem sltWritesTheSignedComparison : Obligations.SltWritesTheSignedComparison :=
  ⟨fun _ h => decode_registerForm_of_wideMask (op := .slt) h rfl fun _ => rfl,
    fun rd rs1 rs2 s => executes_of_resultOf (.slt rd rs1 rs2) s (aluSlt_toNat _ _)⟩

/-- Settles O17: the row's match dispatches to SLTU, and the ALU compares unsigned values. -/
theorem sltuWritesTheUnsignedComparison : Obligations.SltuWritesTheUnsignedComparison :=
  ⟨fun _ h => decode_registerForm_of_wideMask (op := .sltu) h rfl fun _ => rfl,
    fun rd rs1 rs2 s => executes_of_resultOf (.sltu rd rs1 rs2) s (aluSltu_toNat _ _)⟩

/-- Settles O18: the row's match dispatches to XOR, and the ALU works on each bit alone. -/
theorem xorWritesTheBitwiseXor : Obligations.XorWritesTheBitwiseXor :=
  ⟨fun _ h => decode_registerForm_of_wideMask (op := .xor) h rfl fun _ => rfl,
    fun rd rs1 rs2 s => executes_of_resultOf (.xor rd rs1 rs2) s fun k _ => aluXor_getLsbD _ _ k⟩

/-- Settles O19: the row's match dispatches to SRL, and the ALU divides by the power of two. -/
theorem srlShiftsRightZeroFilled : Obligations.SrlShiftsRightZeroFilled :=
  ⟨fun _ h => decode_registerForm_of_wideMask (op := .srl) h rfl fun _ => rfl,
    fun rd rs1 rs2 s => executes_of_resultOf (.srl rd rs1 rs2) s (aluSrl_toNat _ _)⟩

/-- Settles O20: the row's match dispatches to SRA, and the ALU reads bit 31 for every place past the top. -/
theorem sraShiftsRightSignFilled : Obligations.SraShiftsRightSignFilled :=
  ⟨fun _ h => decode_registerForm_of_wideMask (op := .sra) h rfl fun _ => rfl,
    fun rd rs1 rs2 s => executes_of_resultOf (.sra rd rs1 rs2) s fun _ hk => aluSra_getLsbD _ _ hk⟩

/-- Settles O21: the row's match dispatches to OR, and the ALU works on each bit alone. -/
theorem orWritesTheBitwiseOr : Obligations.OrWritesTheBitwiseOr :=
  ⟨fun _ h => decode_registerForm_of_wideMask (op := .or) h rfl fun _ => rfl,
    fun rd rs1 rs2 s => executes_of_resultOf (.or rd rs1 rs2) s fun k _ => aluOr_getLsbD _ _ k⟩

/-- Settles O22: the row's match dispatches to AND, and the ALU works on each bit alone. -/
theorem andWritesTheBitwiseAnd : Obligations.AndWritesTheBitwiseAnd :=
  ⟨fun _ h => decode_registerForm_of_wideMask (op := .and) h rfl fun _ => rfl,
    fun rd rs1 rs2 s => executes_of_resultOf (.and rd rs1 rs2) s fun k _ => aluAnd_getLsbD _ _ k⟩

/-! ## The register shifts see five bits of their amount (41_alu_register.md R97) -/

/-- Each register shift writes one function of `x[rs1]` and of `x[rs2]` modulo 32, which copies at amount 0. -/
theorem registerShift_eq_shift_mod_32 {op : RegIdx → RegIdx → RegIdx → Instr}
    (hop : op ∈ [Instr.sll, Instr.srl, Instr.sra]) :
    ∃ shift : Word → Nat → Word, (∀ a, shift a 0 = a) ∧ ∀ (rd rs1 rs2 : RegIdx) (s : State),
      exec (op rd rs1 rs2) s = .next (s.writeReg rd (shift (s.x rs1) ((s.x rs2).toNat % 32))) := by
  simp only [← shiftAmount_eq]
  simp only [List.mem_cons, List.not_mem_nil, or_false] at hop
  rcases hop with rfl | rfl | rfl
  · exact ⟨(· <<< ·), BitVec.shiftLeft_zero, fun rd rs1 rs2 s => exec_eq_writeReg (.sll rd rs1 rs2) s⟩
  · exact ⟨(· >>> ·), BitVec.ushiftRight_zero, fun rd rs1 rs2 s => exec_eq_writeReg (.srl rd rs1 rs2) s⟩
  · exact ⟨.sshiftRight, fun _ => BitVec.sshiftRight_zero,
      fun rd rs1 rs2 s => exec_eq_writeReg (.sra rd rs1 rs2) s⟩

/-- Settles O33: both states give the shift the same two arguments, and amount 0 is its identity. -/
theorem shiftsUseOnlyTheLowFiveBits : Obligations.ShiftsUseOnlyTheLowFiveBits := by
  intro op hop rd rs1 rs2 s s' hrs1 hrs2
  obtain ⟨shift, hzero, hexec⟩ := registerShift_eq_shift_mod_32 hop
  have hself (u : State) (v : Word) : (u.writeReg rd v).x rd = if rd = 0#5 then 0#32 else v :=
    (onlyWrites_writeReg u rd v).dest
  refine ⟨_, _, hexec rd rs1 rs2 s, hexec rd rs1 rs2 s', ?_, fun hamount hrd => ?_⟩
  · rw [hself, hself, hrs1, hrs2]
  · rw [hself, if_neg hrd, hamount, hzero]

end Sys2Proof.Machine


namespace Sys2Proof.Machine

/-! ## The words of a row with the narrow mask (30_encoding.md R63, R71) -/

/-- A word that agrees under the mask `0x0000707F` with an I-type `v` dispatches by the funct3 of `v`, when the
selector in bits 31..25, which this mask does not keep, decides nothing there. -/
theorem dispatchWith_of_narrowMask {alt : BitVec 7} {w v : Word} {op : Operation} (h : w &&& 0x0000707F#32 = v)
    (hfmt : formatOf (v.extractLsb' 0 7) = .I) (hop : ∀ hi, dispatchI alt hi (v.extractLsb' 12 3) = some op) :
    dispatchWith alt (extract w) = some op := by
  have hv : v &&& 0x0000707F#32 = v := by rw [← h, BitVec.and_assoc, BitVec.and_self]
  obtain ⟨hopcode, hfunct3⟩ := (and_narrowMask_eq_iff w v hv).1 h
  rw [dispatchWith_extract, hopcode, hfmt, hfunct3]
  exact hop _

/-- A word whose row's match dispatches to an immediate form, whatever the selector, decodes to that form of the
registers its fields name and its immediate, sign-extended (R54, R56, R71). -/
theorem decode_immediateForm_of_narrowMask {w v : Word} {op : Operation} {form : RegIdx → RegIdx → Word → Instr}
    (h : w &&& 0x0000707F#32 = v) (hfmt : formatOf (v.extractLsb' 0 7) = .I)
    (hop : ∀ hi, dispatchI altFunct7 hi (v.extractLsb' 12 3) = some op)
    (hform : ∀ d, op.build d = form d.rd d.rs1 d.imm) :
    decode w = .classified (form (bitsAt w 7 5) (bitsAt w 15 5) ((bitsAt w 20 12).signExtend 32)) := by
  have hfields : op.build (extract w) =
      form (bitsAt w 7 5) (bitsAt w 15 5) ((bitsAt w 20 12).signExtend 32) := by
    rw [hform, ← extractLsb'_eq_bitsAt, ← extractLsb'_eq_bitsAt, ← extractLsb'_eq_bitsAt]
    rfl
  rw [decode, decodeWith_of_dispatch (dispatchWith_of_narrowMask h hfmt hop), hfields]

/-! ## The immediate sum and the immediate bitwise operations (42_alu_immediate.md R111, R114 to R116) -/

/-- Settles O23: the row's match dispatches to ADDI for every selector, and the ALU's sum wraps. -/
theorem addiWritesTheWrappedSum : Obligations.AddiWritesTheWrappedSum :=
  ⟨fun _ h => decode_immediateForm_of_narrowMask (op := .addi) h rfl (fun _ => rfl) fun _ => rfl,
    fun rd rs1 imm s => executes_of_resultOf (.addi rd rs1 imm) s (aluAdd_toNat _ _)⟩

/-- Settles O26: the row's match dispatches to XORI for every selector, and the ALU works on each bit alone. -/
theorem xoriWritesTheBitwiseXor : Obligations.XoriWritesTheBitwiseXor :=
  ⟨fun _ h => decode_immediateForm_of_narrowMask (op := .xori) h rfl (fun _ => rfl) fun _ => rfl,
    fun rd rs1 imm s => executes_of_resultOf (.xori rd rs1 imm) s fun k _ => aluXor_getLsbD _ _ k⟩

/-- Settles O27: the row's match dispatches to ORI for every selector, and the ALU works on each bit alone. -/
theorem oriWritesTheBitwiseOr : Obligations.OriWritesTheBitwiseOr :=
  ⟨fun _ h => decode_immediateForm_of_narrowMask (op := .ori) h rfl (fun _ => rfl) fun _ => rfl,
    fun rd rs1 imm s => executes_of_resultOf (.ori rd rs1 imm) s fun k _ => aluOr_getLsbD _ _ k⟩

/-- Settles O28: the row's match dispatches to ANDI for every selector, and the ALU works on each bit alone. -/
theorem andiWritesTheBitwiseAnd : Obligations.AndiWritesTheBitwiseAnd :=
  ⟨fun _ h => decode_immediateForm_of_narrowMask (op := .andi) h rfl (fun _ => rfl) fun _ => rfl,
    fun rd rs1 imm s => executes_of_resultOf (.andi rd rs1 imm) s fun k _ => aluAnd_getLsbD _ _ k⟩

end Sys2Proof.Machine


namespace Sys2Proof.Machine

/-! ## No instruction raises anything (60_exceptions.md R123) -/

/-- Settles O35: whatever the instruction, its one effect is the write-back of its result, and the state with that
register written is the next one. -/
theorem classifiedWordsNeverStop : Obligations.ClassifiedWordsNeverStop :=
  fun i s => ⟨s.writeReg i.rd (resultOf i s), exec_eq_writeReg i s⟩

end Sys2Proof.Machine


namespace Sys2Proof.Machine

/-! ## The state after reset (70_reset_and_hazards.md R140) -/

/-- Settles O1: the reset state's register file is the zero file, and `RegFile.read_zero` says what that file reads. -/
theorem resetLeavesEveryRegisterZero : Obligations.ResetLeavesEveryRegisterZero := by
  intro i
  rw [State.x, State.reset_regs, RegFile.read_zero]

end Sys2Proof.Machine


namespace Sys2Proof.Machine

/-! ## Decoding an encoded word, layout by layout (30_encoding.md R60, R72) -/

section DecodeEncode

variable {alt : BitVec 7} {op : Operation} {f3 : BitVec 3}

/-- An R-type word whose pair dispatches to a register form decodes to that form of its three registers. -/
theorem decodeWith_encR {f7 : BitVec 7} {form : RegIdx → RegIdx → RegIdx → Instr}
    (hop : dispatchR alt f7 f3 = some op) (hform : ∀ d, op.build d = form d.rd d.rs1 d.rs2)
    (rd rs1 rs2 : RegIdx) : decodeWith alt (encR f7 rs2 rs1 f3 rd) = .classified (form rd rs1 rs2) := by
  obtain ⟨hfmt, hrd, hf3, hrs1, hrs2, hf7⟩ := extract_encR f7 rs2 rs1 f3 rd
  have hdisp : dispatchWith alt (extract (encR f7 rs2 rs1 f3 rd)) = some op := by
    simp only [dispatchWith, hfmt, hf7, hf3, hop]
  rw [decodeWith_of_dispatch hdisp, hform, hrd, hrs1, hrs2]

/-- An I-type word whose funct3 dispatches to an immediate form, whatever the selector, decodes to that form; its
immediate comes back because it fits its field. -/
theorem decodeWith_encI {form : RegIdx → RegIdx → Word → Instr}
    (hop : ∀ hi, dispatchI alt hi f3 = some op) (hform : ∀ d, op.build d = form d.rd d.rs1 d.imm)
    (rd rs1 : RegIdx) {imm : Word} (hfits : immFits imm = true) :
    decodeWith alt (encI (imm.setWidth 12) rs1 f3 rd) = .classified (form rd rs1 imm) := by
  obtain ⟨hfmt, hrd, hf3, hrs1, himm⟩ := extract_encI (imm.setWidth 12) rs1 f3 rd
  have hdisp : dispatchWith alt (extract (encI (imm.setWidth 12) rs1 f3 rd)) = some op := by
    simp only [dispatchWith, hfmt, hf3, hop]
  rw [decodeWith_of_dispatch hdisp, hform, hrd, hrs1, himm, beq_iff_eq.1 hfits]

/-- A shift word whose selector and funct3 dispatch to a shift form decodes to that form of its amount. -/
theorem decodeWith_encShift {sel : BitVec 7} {form : RegIdx → RegIdx → BitVec 5 → Instr}
    (hop : dispatchI alt sel f3 = some op)
    (hform : ∀ d, op.build d = form d.rd d.rs1 (d.imm.extractLsb' 0 5)) (rd rs1 : RegIdx) (k : BitVec 5) :
    decodeWith alt (encShift sel k rs1 f3 rd) = .classified (form rd rs1 k) := by
  obtain ⟨hfmt, hrd, hf3, hrs1, himm⟩ := extract_encI (sel ++ k) rs1 f3 rd
  obtain ⟨hsel, hk⟩ := shiftParts sel k
  have hdisp : dispatchWith alt (extract (encI (sel ++ k) rs1 f3 rd)) = some op := by
    simp only [dispatchWith, hfmt, himm, hsel, hf3, hop]
  rw [encShift, decodeWith_of_dispatch hdisp, hform, hrd, hrs1, himm, hk]

end DecodeEncode

/-- With `ALT_FUNCT7` other than 0 its column is the alternate one (R61). -/
theorem dispatchR_alt {alt : BitVec 7} (halt : alt ≠ 0#7) (f3 : BitVec 3) :
    dispatchR alt alt f3 = altColumn f3 := by
  rw [dispatchR, if_neg halt, if_pos rfl]

/-- With `ALT_FUNCT7` other than 0 it is the selector of SRAI (R64). -/
theorem dispatchI_alt_srai {alt : BitVec 7} (halt : alt ≠ 0#7) :
    dispatchI alt alt 0b101#3 = some .srai := by
  simp only [dispatchI, if_neg halt, if_true]

/-- Settles O8: each instruction's word has one of three layouts, and its funct3 with its selector dispatches to its
own operation; only SUB, SRA and SRAI need the alternate column told from column 0. -/
theorem decodeOfEncodeIsTheInstruction : Obligations.DecodeOfEncodeIsTheInstruction := by
  intro alt i halt hwf
  cases i with
  | add rd a b => exact decodeWith_encR (op := .add) rfl (fun _ => rfl) rd a b
  | sub rd a b => exact decodeWith_encR (op := .sub) (dispatchR_alt halt _) (fun _ => rfl) rd a b
  | sll rd a b => exact decodeWith_encR (op := .sll) rfl (fun _ => rfl) rd a b
  | slt rd a b => exact decodeWith_encR (op := .slt) rfl (fun _ => rfl) rd a b
  | sltu rd a b => exact decodeWith_encR (op := .sltu) rfl (fun _ => rfl) rd a b
  | xor rd a b => exact decodeWith_encR (op := .xor) rfl (fun _ => rfl) rd a b
  | srl rd a b => exact decodeWith_encR (op := .srl) rfl (fun _ => rfl) rd a b
  | sra rd a b => exact decodeWith_encR (op := .sra) (dispatchR_alt halt _) (fun _ => rfl) rd a b
  | or rd a b => exact decodeWith_encR (op := .or) rfl (fun _ => rfl) rd a b
  | and rd a b => exact decodeWith_encR (op := .and) rfl (fun _ => rfl) rd a b
  | addi rd a imm => exact decodeWith_encI (op := .addi) (fun _ => rfl) (fun _ => rfl) rd a hwf
  | slti rd a imm => exact decodeWith_encI (op := .slti) (fun _ => rfl) (fun _ => rfl) rd a hwf
  | sltiu rd a imm => exact decodeWith_encI (op := .sltiu) (fun _ => rfl) (fun _ => rfl) rd a hwf
  | xori rd a imm => exact decodeWith_encI (op := .xori) (fun _ => rfl) (fun _ => rfl) rd a hwf
  | ori rd a imm => exact decodeWith_encI (op := .ori) (fun _ => rfl) (fun _ => rfl) rd a hwf
  | andi rd a imm => exact decodeWith_encI (op := .andi) (fun _ => rfl) (fun _ => rfl) rd a hwf
  | slli rd a k => exact decodeWith_encShift (op := .slli) rfl (fun _ => rfl) rd a k
  | srli rd a k => exact decodeWith_encShift (op := .srli) rfl (fun _ => rfl) rd a k
  | srai rd a k => exact decodeWith_encShift (op := .srai) (dispatchI_alt_srai halt) (fun _ => rfl) rd a k

/-! ## Encoding a decoded word (30_encoding.md R60, R71, R72) -/

/-- An R-type word is the layout of its own fields. -/
theorem encR_fields {w : Word} (h : w.extractLsb' 0 7 = opcodeOp) :
    encR (extract w).funct7 (extract w).rs2 (extract w).rs1 (extract w).funct3 (extract w).rd = w := by
  have hopcode : w.toNat / 2 ^ 0 % 2 ^ 7 = 0b0110011 := by
    rw [← toNat_extractLsb', h]; rfl
  apply BitVec.eq_of_toNat_eq
  simp only [encR_toNat, extract, toNat_extractLsb']
  have := w.isLt
  omega

/-- The low 12 bits of the immediate are the field it extends (R56). -/
theorem setWidth_immField (w : Word) : (immField w).setWidth 12 = w.extractLsb' 20 12 := by
  ext k hk
  rw [BitVec.getElem_setWidth, immField_getLsbD w (by omega), if_pos hk, BitVec.getElem_extractLsb']

/-- An I-type word is the layout of its own fields, the immediate as the low 12 bits of its extension. -/
theorem encI_fields {w : Word} (h : w.extractLsb' 0 7 = opcodeOpImm) :
    encI ((extract w).imm.setWidth 12) (extract w).rs1 (extract w).funct3 (extract w).rd = w := by
  have hopcode : w.toNat / 2 ^ 0 % 2 ^ 7 = 0b0010011 := by
    rw [← toNat_extractLsb', h]; rfl
  have himm : (extract w).imm.setWidth 12 = w.extractLsb' 20 12 := setWidth_immField w
  apply BitVec.eq_of_toNat_eq
  rw [himm, encI_toNat]
  simp only [extract, toNat_extractLsb']
  have := w.isLt
  omega

/-- The immediate the extractor reads fits its field (R56). -/
theorem immFits_immField (w : Word) : immFits (immField w) = true := by
  rw [immFits, setWidth_immField, beq_iff_eq]
  rfl

/-- Every operation built on a word's fields has an encoding. -/
theorem wellFormed_build_extract (op : Operation) (w : Word) : (op.build (extract w)).wellFormed = true := by
  cases op with
  | addi | slti | sltiu | xori | ori | andi => exact immFits_immField w
  | _ => rfl

theorem funct3_cases (f3 : BitVec 3) : f3 = 0#3 ∨ f3 = 1#3 ∨ f3 = 2#3 ∨ f3 = 3#3 ∨ f3 = 4#3 ∨ f3 = 5#3 ∨
    f3 = 6#3 ∨ f3 = 7#3 := by
  revert f3; decide

/-- The operation of an R-type pair is encoded with that pair. -/
theorem encodeWith_build_of_dispatchR {alt f7 : BitVec 7} {f3 : BitVec 3} {op : Operation}
    (h : dispatchR alt f7 f3 = some op) (d : Fields) :
    encodeWith alt (op.build d) = encR f7 d.rs2 d.rs1 f3 d.rd := by
  unfold dispatchR at h
  split_ifs at h with hbase halt
  · obtain rfl := Option.some.inj h
    rcases funct3_cases f3 with rfl | rfl | rfl | rfl | rfl | rfl | rfl | rfl <;> rw [hbase] <;> rfl
  · unfold altColumn at h
    split at h <;> cases h <;> rw [halt] <;> rfl

/-- The selector above the shift amount is the whole 12-bit immediate. -/
theorem selector_append_shamt (imm : Word) :
    imm.extractLsb' 5 7 ++ imm.extractLsb' 0 5 = imm.setWidth 12 := by
  ext k hk
  rw [BitVec.getElem_append]
  simp only [BitVec.getElem_extractLsb', BitVec.getElem_setWidth]
  split
  · simp
  · congr 1; omega

/-- The operation of an I-type funct3 and selector is encoded with that funct3 and the whole immediate. -/
theorem encodeWith_build_of_dispatchI {alt : BitVec 7} {f3 : BitVec 3} {op : Operation} {d : Fields}
    (h : dispatchI alt (d.imm.extractLsb' 5 7) f3 = some op) :
    encodeWith alt (op.build d) = encI (d.imm.setWidth 12) d.rs1 f3 d.rd := by
  have hshift := selector_append_shamt d.imm
  rcases funct3_cases f3 with rfl | rfl | rfl | rfl | rfl | rfl | rfl | rfl
  · cases h; rfl
  · simp only [dispatchI] at h
    split_ifs at h with hzero
    cases h
    rw [← hshift, hzero]; rfl
  · cases h; rfl
  · cases h; rfl
  · cases h; rfl
  · simp only [dispatchI] at h
    split_ifs at h with hzero halt <;> cases h <;> rw [← hshift]
    · rw [hzero]; rfl
    · rw [halt]; rfl
  · cases h; rfl
  · cases h; rfl

/-- The instruction a word dispatches to is encoded as the word (R65, R72). -/
theorem encodeWith_build_of_dispatchWith {alt : BitVec 7} {w : Word} {op : Operation}
    (h : dispatchWith alt (extract w) = some op) : encodeWith alt (op.build (extract w)) = w := by
  unfold dispatchWith at h
  cases hfmt : (extract w).fmt with
  | R =>
    rw [hfmt] at h
    rw [encodeWith_build_of_dispatchR h, encR_fields (formatOf_eq_R_iff.1 hfmt)]
  | I =>
    rw [hfmt] at h
    rw [encodeWith_build_of_dispatchI h, encI_fields (formatOf_eq_I_iff.1 hfmt)]
  | U => rw [hfmt] at h; cases h

/-- Settles O9: a classified word is dispatched by the very fields that its instruction's layout puts back. -/
theorem encodeOfDecodeIsTheWord : Obligations.EncodeOfDecodeIsTheWord := by
  intro alt w i h
  rcases decodeWith_cases alt w with ⟨op, hd, hop⟩ | ⟨-, hun⟩
  · obtain rfl : op.build (extract w) = i := Decoded.classified.inj (hop.symm.trans h)
    exact ⟨wellFormed_build_extract op w, encodeWith_build_of_dispatchWith hd⟩
  · rw [hun] at h; cases h

end Sys2Proof.Machine


namespace Sys2Proof.Machine

/-! ## What one edge does with its cycle (40_core_step.md R89, R91, R95; 70_reset_and_hazards.md R141) -/

section Edge

variable {c : Cycle} (s : State)

theorem clockEdge_of_rst (hrst : c.rst = true) : clockEdge c s = .next s.clearRegs := by
  simp only [clockEdge, hrst, if_true]

theorem clockEdge_of_idle (hrst : c.rst = false) (hvalid : c.instrValid = false) : clockEdge c s = .next s := by
  simp only [clockEdge, hrst, hvalid, Bool.false_eq_true, if_false]

theorem clockEdge_of_valid (hrst : c.rst = false) (hvalid : c.instrValid = true) :
    clockEdge c s = acceptWord c.instr s := by
  simp only [clockEdge, hrst, hvalid, Bool.false_eq_true, if_false, if_true]

theorem acceptWord_of_classified {w : Word} {i : Instr}
    (h : decodeWith s.params.altFunct7 w = .classified i) : acceptWord w s = exec i s := by
  rw [acceptWord, h]

theorem acceptWord_of_unclassified {w : Word} (h : decodeWith s.params.altFunct7 w = .unclassified w) :
    acceptWord w s = raiseUnclassified w s := by
  rw [acceptWord, h]

theorem raiseUnclassified_of_ignore (w : Word) (h : s.params.policy = .ignore) :
    raiseUnclassified w s = .next s := by
  rw [raiseUnclassified, h]

theorem raiseUnclassified_of_trap (w : Word) (h : s.params.policy = .trap) :
    raiseUnclassified w s = .fault (.unclassifiedInstruction w) := by
  rw [raiseUnclassified, h]

variable {s}

/-- A step in a state that lists a cycle is that cycle's edge on the state with the cycle consumed. -/
theorem step_cons {rest : List Cycle} (h : s.inputs = c :: rest) :
    step s = clockEdge c { s with inputs := rest } := by
  rw [step, s.presented_cons h, s.advance_cons h]

/-- `illegal` is 1 exactly when the present cycle's word is accepted and unclassified (R126). -/
theorem illegal_iff : s.illegal = true ↔ s.presented.rst = false ∧ s.presented.instrValid = true ∧
    decodeWith s.params.altFunct7 s.presented.instr = .unclassified s.presented.instr := by
  rw [← unclassifiedWith_iff, State.illegal]
  cases s.presented.rst <;> simp

/-- A cycle is clean when, presented, it leaves `illegal` 0. -/
theorem clean_presented : s.presented.clean s.params.altFunct7 = !s.illegal := rfl

end Edge

/-! ## One step in one equation: it stops on a trapped unclassified word, or the datapath gives the registers -/

/-- The state after an edge that does not stop: the registers by the datapath's step, one cycle consumed. -/
def State.afterEdge (s : State) : State :=
  { s.advance with regs := regsAfterCycle s.params.altFunct7 s.regs s.presented }

@[simp] theorem State.afterEdge_regs (s : State) :
    s.afterEdge.regs = regsAfterCycle s.params.altFunct7 s.regs s.presented := rfl
@[simp] theorem State.afterEdge_inputs (s : State) : s.afterEdge.inputs = s.inputs.tail := rfl
@[simp] theorem State.afterEdge_params (s : State) : s.afterEdge.params = s.params := rfl

theorem regsAfterCycle_of_rst {c : Cycle} (alt : BitVec 7) (r : RegFile) (hrst : c.rst = true) :
    regsAfterCycle alt r c = RegFile.zero := by
  simp only [regsAfterCycle, hrst, if_true]

theorem regsAfterCycle_of_idle {c : Cycle} (alt : BitVec 7) (r : RegFile) (hrst : c.rst = false)
    (hvalid : c.instrValid = false) : regsAfterCycle alt r c = r := by
  simp only [regsAfterCycle, hrst, hvalid, Bool.false_eq_true, if_false]

theorem regsAfterCycle_of_valid {c : Cycle} (alt : BitVec 7) (r : RegFile) (hrst : c.rst = false)
    (hvalid : c.instrValid = true) : regsAfterCycle alt r c = regsAfterWord alt r c.instr := by
  simp only [regsAfterCycle, hrst, hvalid, Bool.false_eq_true, if_false, if_true]

/-- Accepting a classified word leaves the datapath's register file. -/
theorem acceptWord_eq_regsAfterWord {w : Word} {s : State}
    (h : decodeWith s.params.altFunct7 w ≠ .unclassified w) :
    acceptWord w s = .next { s with regs := regsAfterWord s.params.altFunct7 s.regs w } := by
  rcases decodeWith_cases s.params.altFunct7 w with ⟨op, hd, -⟩ | ⟨-, hun⟩
  · rcases stepWord_acceptWord_cases w s with ⟨r, hstep, hacc⟩ | ⟨hstep, -⟩
    · rw [hacc, regsAfterWord, hstep]
    · rw [stepWord_of_dispatch_some hd] at hstep; cases hstep
  · exact absurd hun h

theorem regsAfterWord_of_unclassified {alt : BitVec 7} {w : Word} (h : decodeWith alt w = .unclassified w)
    (r : RegFile) : regsAfterWord alt r w = r := by
  rcases decodeWith_cases alt w with ⟨op, -, hop⟩ | ⟨hd, -⟩
  · rw [hop] at h; cases h
  · rw [regsAfterWord, stepWord_of_dispatch_none hd]

/-- Under TRAP an illegal word stops the step (R91). -/
theorem step_of_stops {s : State} (h : s.params.policy = .trap ∧ s.illegal = true) :
    step s = .fault (.unclassifiedInstruction s.presented.instr) := by
  obtain ⟨htrap, hillegal⟩ := h
  obtain ⟨hrst, hvalid, hun⟩ := illegal_iff.1 hillegal
  calc step s = acceptWord s.presented.instr s.advance := clockEdge_of_valid _ hrst hvalid
    _ = raiseUnclassified s.presented.instr s.advance := acceptWord_of_unclassified _ hun
    _ = .fault (.unclassifiedInstruction s.presented.instr) := raiseUnclassified_of_trap _ _ htrap

/-- Every other step goes on, to the state the datapath gives (R89, R90, R95, R141). -/
theorem step_of_not_stops {s : State} (h : ¬ (s.params.policy = .trap ∧ s.illegal = true)) :
    step s = .next s.afterEdge := by
  cases hrst : s.presented.rst with
  | true => rw [step, clockEdge_of_rst _ hrst, State.afterEdge, regsAfterCycle_of_rst _ _ hrst]; rfl
  | false =>
    cases hvalid : s.presented.instrValid with
    | false =>
      rw [step, clockEdge_of_idle _ hrst hvalid, State.afterEdge, regsAfterCycle_of_idle _ _ hrst hvalid]; rfl
    | true =>
      rw [step, clockEdge_of_valid _ hrst hvalid, State.afterEdge, regsAfterCycle_of_valid _ _ hrst hvalid]
      by_cases hun : decodeWith s.params.altFunct7 s.presented.instr = .unclassified s.presented.instr
      · have hignore : s.params.policy = .ignore := by
          cases hp : s.params.policy with
          | ignore => rfl
          | trap => exact absurd ⟨hp, illegal_iff.2 ⟨hrst, hvalid, hun⟩⟩ h
        rw [regsAfterWord_of_unclassified hun]
        exact (acceptWord_of_unclassified s.advance hun).trans (raiseUnclassified_of_ignore s.advance _ hignore)
      · exact acceptWord_eq_regsAfterWord hun

theorem step_eq_next_iff {s t : State} :
    step s = .next t ↔ ¬ (s.params.policy = .trap ∧ s.illegal = true) ∧ t = s.afterEdge := by
  by_cases h : s.params.policy = .trap ∧ s.illegal = true
  · rw [step_of_stops h]
    exact ⟨nofun, fun hnext => absurd h hnext.1⟩
  · rw [step_of_not_stops h, Host.Outcome.next.injEq]
    exact ⟨fun ht => ⟨h, ht.symm⟩, fun hnext => hnext.2.symm⟩

theorem step_of_ignore {s : State} (h : s.params.policy = .ignore) : step s = .next s.afterEdge :=
  step_of_not_stops fun ⟨htrap, _⟩ => by rw [h] at htrap; cases htrap

/-! ## Runs under the two policies (20_memory.md R48; 60_exceptions.md R138) -/

/-- Settles O51: by induction on the cycles, each step under IGNORE being the datapath's. -/
theorem runTakesEffectInOrder : Obligations.RunTakesEffectInOrder := by
  intro cs
  induction cs with
  | nil =>
    rintro rest s hin -
    rw [List.nil_append] at hin
    rw [← hin]; rfl
  | cons c cs ih =>
    intro rest s hin hignore
    have hpresented : s.presented = c := s.presented_cons hin
    have hrest : s.afterEdge.inputs = cs ++ rest := by rw [State.afterEdge_inputs, hin]; rfl
    rw [List.length_cons, run_succ_next _ (step_of_ignore hignore), ih rest s.afterEdge hrest hignore,
      List.foldl_cons, State.afterEdge_regs, hpresented]
    rfl

/-- Under IGNORE a step goes on; the policy has no part in where it goes. -/
theorem step_withPolicy_ignore (s : State) :
    step (s.withPolicy .ignore) = .next (s.afterEdge.withPolicy .ignore) := step_of_ignore rfl

/-- Under TRAP a step goes on when `illegal` is 0. -/
theorem step_withPolicy_trap {s : State} (h : s.illegal = false) :
    step (s.withPolicy .trap) = .next (s.afterEdge.withPolicy .trap) :=
  step_of_not_stops fun ⟨_, hillegal⟩ => Bool.false_ne_true (h.symm.trans hillegal)

/-- Under TRAP a step stops when `illegal` is 1. -/
theorem step_withPolicy_trap_stops {s : State} (h : s.illegal = true) :
    step (s.withPolicy .trap) = .fault (.unclassifiedInstruction s.presented.instr) :=
  step_of_stops ⟨rfl, h⟩

/-- Settles O52: by induction on the steps; a run that goes on under TRAP never has `illegal` 1, and then both
policies take the same step. -/
theorem trapRunsAreIgnoreRuns : Obligations.TrapRunsAreIgnoreRuns := by
  intro n
  induction n with
  | zero =>
    intro s t h
    obtain rfl : s.withPolicy .trap = t := Host.Outcome.next.inj h
    rfl
  | succ n ih =>
    intro s t h
    cases hillegal : s.illegal with
    | true => rw [run_succ_fault n (step_withPolicy_trap_stops hillegal)] at h; cases h
    | false =>
      rw [run_succ_next n (step_withPolicy_trap hillegal)] at h
      rw [run_succ_next n (step_withPolicy_ignore s)]
      exact ih _ _ h

theorem safeRun_zero (s : State) : SafeRun 0 s := ⟨s, run_zero s⟩

/-- Only the rest of a run whose first step goes on decides whether it is safe. -/
theorem safeRun_succ_of_next {s t : State} (n : Nat) (h : step s = .next t) : SafeRun (n + 1) s ↔ SafeRun n t := by
  rw [SafeRun, run_succ_next n h]; rfl

theorem not_safeRun_succ_of_fault {s : State} {f : Fault} (n : Nat) (h : step s = .fault f) :
    ¬ SafeRun (n + 1) s := by
  rintro ⟨t, ht⟩
  rw [run_succ_fault n h] at ht; cases ht

theorem safeRun_ignore (n : Nat) (s : State) : SafeRun n (s.withPolicy .ignore) := by
  induction n generalizing s with
  | zero => exact safeRun_zero _
  | succ n ih => exact (safeRun_succ_of_next n (step_withPolicy_ignore s)).2 (ih s.afterEdge)

/-- The first `n + 1` cycles are clean exactly when `illegal` is 0 and the first `n` after the present one are. -/
theorem forall_clean_take_succ (n : Nat) (s : State) :
    (∀ c ∈ s.inputs.take (n + 1), c.clean s.params.altFunct7 = true) ↔
      s.illegal = false ∧ ∀ c ∈ s.inputs.tail.take n, c.clean s.params.altFunct7 = true := by
  have hhead : s.illegal = false ↔ s.presented.clean s.params.altFunct7 = true := by simp [clean_presented]
  rw [hhead]
  cases hin : s.inputs with
  | nil => simp [s.presented_nil hin, Cycle.clean, Cycle.accepts, Cycle.idle]
  | cons c rest => simp [s.presented_cons hin]

/-- A run under TRAP is safe exactly when its cycles are clean: each step asks it of the present one. -/
theorem safeRun_trap_iff (n : Nat) (s : State) :
    SafeRun n (s.withPolicy .trap) ↔ ∀ c ∈ s.inputs.take n, c.clean s.params.altFunct7 = true := by
  induction n generalizing s with
  | zero => simp [safeRun_zero]
  | succ n ih =>
    rw [forall_clean_take_succ]
    cases hillegal : s.illegal with
    | true => simp [not_safeRun_succ_of_fault n (step_withPolicy_trap_stops hillegal)]
    | false =>
      rw [safeRun_succ_of_next n (step_withPolicy_trap hillegal), ih s.afterEdge]
      simp

/-- Settles O53: the two inductions on the steps, one per policy. -/
theorem trapRunsAreSafeExactlyWhenClean : Obligations.TrapRunsAreSafeExactlyWhenClean :=
  fun n s => ⟨safeRun_trap_iff n s, safeRun_ignore n s⟩

/-! ## Reaching a register file (70_reset_and_hazards.md R145) -/

/-- The register file after an instruction. -/
def RegFile.after (r : RegFile) (i : Instr) : RegFile :=
  r.write i.rd (resultOf i { State.reset with regs := r })

/-- Presenting the word of a well-formed instruction has the effect of the instruction. -/
theorem regsAfterCycle_present_encode {i : Instr} (h : i.wellFormed = true) (r : RegFile) :
    regsAfterCycle altFunct7 r (Cycle.present (encode i)) = r.after i := by
  have hdec : decodeWith altFunct7 (encode i) = .classified i :=
    decodeOfEncodeIsTheInstruction altFunct7 i (by decide) h
  have hclassified : decodeWith altFunct7 (encode i) ≠ .unclassified (encode i) := by rw [hdec]; nofun
  have hacc : acceptWord (encode i) { State.reset with regs := r } = .next { State.reset with
      regs := regsAfterWord altFunct7 r (encode i) } := acceptWord_eq_regsAfterWord hclassified
  rw [acceptWord_of_classified _ hdec, exec_eq_writeReg] at hacc
  exact (congrArg State.regs (Host.Outcome.next.inj hacc)).symm

/-- Eleven bits of a word, from bit `lo` on, as a word. -/
def chunk (v : Word) (lo : Nat) : Word := (v.extractLsb' lo 11).setWidth 32

/-- Eleven bits fit the 12-bit immediate without its sign. -/
theorem immFits_chunk (v : Word) (lo : Nat) : immFits (chunk v lo) = true := by
  have hlt : (chunk v lo).toNat < 2 ^ 11 := by
    rw [chunk, BitVec.toNat_setWidth]
    have := (v.extractLsb' lo 11).isLt
    omega
  have himm : chunk v lo = BitVec.ofInt 32 (chunk v lo).toNat := by simp
  exact immFits_of_immOfInt (immOfInt_eq_some_iff.2 ⟨by omega, himm⟩)

/-- The instructions that give register `i` the value `v`: its three chunks, from the top, each below the one before. -/
def loadInstrs (i : RegIdx) (v : Word) : List Instr :=
  [.addi i 0#5 (chunk v 22), .slli i i 11#5, .ori i i (chunk v 11), .slli i i 11#5, .ori i i (chunk v 0)]

theorem chunk_getLsbD (v : Word) (lo k : Nat) :
    (chunk v lo).getLsbD k = (decide (k < 11) && v.getLsbD (lo + k)) := by
  rw [chunk, BitVec.getLsbD_setWidth, BitVec.getLsbD_extractLsb']
  by_cases hk : k < 11
  · simp [hk, show k < 32 by omega]
  · simp [hk]

/-- The three chunks, each shifted into its place, are the word: a bit lies in the chunk its place falls in. -/
theorem chunks_eq (v : Word) : (chunk v 22 <<< 11 ||| chunk v 11) <<< 11 ||| chunk v 0 = v := by
  apply BitVec.eq_of_getLsbD_eq
  intro k hk
  simp only [BitVec.getLsbD_or, BitVec.getLsbD_shiftLeft, chunk_getLsbD]
  by_cases hlow : k < 11
  · simp [hlow]
  · by_cases hmid : k < 22
    · simp [hlow, hk, show k - 11 < 11 by omega, show 11 + (k - 11) = k by omega]
    · simp [hlow, hk, show ¬ k - 11 < 11 by omega, show k - 11 < 32 by omega,
        show k - 11 - 11 < 11 by omega, show 22 + (k - 11 - 11) = k by omega]

theorem RegFile.write_write_self (r : RegFile) (i : RegIdx) (a b : Word) :
    (r.write i a).write i b = r.write i b := by
  by_cases hi : i = 0#5
  · simp only [hi, RegFile.write_x0]
  · refine RegFile.ext_read fun j => ?_
    by_cases hj : j = i
    · rw [hj, RegFile.read_write_self _ hi, RegFile.read_write_self _ hi]
    · simp only [RegFile.read_write_other _ hj]

/-- ADDI from x0 loads its immediate. -/
theorem after_addi_x0 (r : RegFile) (i : RegIdx) (imm : Word) : r.after (.addi i 0#5 imm) = r.write i imm :=
  congrArg (r.write i) (BitVec.zero_add imm)

/-- An instruction that reads and writes one register, just written, replaces the value; x0 holds none. -/
theorem after_write_self {i : RegIdx} {form : RegIdx → RegIdx → Instr} {f : Word → Word}
    (hrd : ∀ rd a, (form rd a).rd = rd) (hf : ∀ rd a s, resultOf (form rd a) s = f (s.x a))
    (r : RegFile) (v : Word) : (r.write i v).after (form i i) = r.write i (f v) := by
  rw [RegFile.after, hrd, hf, RegFile.write_write_self]
  by_cases hi : i = 0#5
  · rw [hi, RegFile.write_x0, RegFile.write_x0]
  · rw [State.x, RegFile.read_write_self _ hi]

theorem after_slli_write_self (r : RegFile) (i : RegIdx) (v : Word) :
    (r.write i v).after (.slli i i 11#5) = r.write i (v <<< 11) :=
  after_write_self (i := i) (form := fun rd a => .slli rd a 11#5) (f := (· <<< 11)) (fun _ _ => rfl)
    (fun _ _ _ => rfl) r v

theorem after_ori_write_self (r : RegFile) (i : RegIdx) (v imm : Word) :
    (r.write i v).after (.ori i i imm) = r.write i (v ||| imm) :=
  after_write_self (i := i) (form := fun rd a => .ori rd a imm) (f := (· ||| imm)) (fun _ _ => rfl)
    (fun _ _ _ => rfl) r v

theorem foldl_after_loadInstrs (r : RegFile) (i : RegIdx) (v : Word) :
    (loadInstrs i v).foldl RegFile.after r = r.write i v := by
  simp only [loadInstrs, List.foldl_cons, List.foldl_nil, after_addi_x0, after_slli_write_self,
    after_ori_write_self, chunks_eq]

theorem loadInstrs_wellFormed {i : RegIdx} {v : Word} : ∀ j ∈ loadInstrs i v, j.wellFormed = true := by
  simp [loadInstrs, Instr.wellFormed, immFits_chunk]

theorem loadInstrs_op {i : RegIdx} {v : Word} :
    ∀ j ∈ loadInstrs i v, j.op = .addi ∨ j.op = .slli ∨ j.op = .ori := by
  simp [loadInstrs, Instr.op]

/-- All 32 register indices. -/
def allRegs : List RegIdx := (List.finRange 32).map BitVec.ofFin

theorem mem_allRegs (i : RegIdx) : i ∈ allRegs :=
  List.mem_map.2 ⟨i.toFin, List.mem_finRange _, rfl⟩

/-- Writing the values of `r` over some registers makes those read as in `r` and leaves the others. -/
theorem read_foldl_write (r q : RegFile) (is : List RegIdx) (j : RegIdx) :
    (is.foldl (fun q i => q.write i (r.read i)) q).read j = if j ∈ is then r.read j else q.read j := by
  induction is generalizing q with
  | nil => simp
  | cons i is ih =>
    rw [List.foldl_cons, ih]
    by_cases hmem : j ∈ is
    · simp [hmem]
    · by_cases hj : j = i
      · subst hj
        by_cases hzero : j = 0#5
        · simp [hzero, RegFile.read_x0]
        · simp [hmem, RegFile.read_write_self _ hzero]
      · simp [hmem, hj, RegFile.read_write_other _ hj]

/-- The instructions that load every register of a file in turn. -/
def loadAll (r : RegFile) : List Instr := allRegs.flatMap fun i => loadInstrs i (r.read i)

theorem foldl_after_loadAll (r q : RegFile) : (loadAll r).foldl RegFile.after q = r := by
  rw [loadAll, List.foldl_flatMap]
  simp only [foldl_after_loadInstrs]
  exact RegFile.ext_read fun j => by rw [read_foldl_write, if_pos (mem_allRegs j)]

/-- Presenting the words of well-formed instructions in turn has the instructions' effects in turn. -/
theorem foldl_regsAfterCycle_present {is : List Instr} (h : ∀ i ∈ is, i.wellFormed = true) (r : RegFile) :
    ((is.map encode).map Cycle.present).foldl (regsAfterCycle altFunct7) r = is.foldl RegFile.after r := by
  rw [List.map_map, List.foldl_map]
  exact List.foldl_ext _ _ _ fun q i hi => regsAfterCycle_present_encode (h i hi) q

/-- Settles O54: the words load each register by three chunks of its value, and by O51 the run folds their effects. -/
theorem everyRegisterFileIsReachable : Obligations.EveryRegisterFileIsReachable := by
  intro r
  have hwf : ∀ i ∈ loadAll r, i.wellFormed = true := by
    intro i hi
    obtain ⟨j, -, hij⟩ := List.mem_flatMap.1 hi
    exact loadInstrs_wellFormed i hij
  refine ⟨(loadAll r).map encode, fun w hw => ?_, ?_⟩
  · obtain ⟨i, hi, rfl⟩ := List.mem_map.1 hw
    obtain ⟨j, -, hij⟩ := List.mem_flatMap.1 hi
    exact ⟨i, decodeOfEncodeIsTheInstruction altFunct7 i (by decide) (hwf i hi), loadInstrs_op i hij⟩
  · have hrun := runTakesEffectInOrder (((loadAll r).map encode).map Cycle.present) []
      { State.reset with inputs := ((loadAll r).map encode).map Cycle.present } (List.append_nil _).symm rfl
    have hregs : (((loadAll r).map encode).map Cycle.present).foldl (regsAfterCycle altFunct7) RegFile.zero = r :=
      (foldl_regsAfterCycle_present hwf _).trans (foldl_after_loadAll r _)
    rw [List.length_map] at hrun
    refine hrun.trans (congrArg _ ?_)
    exact congrArg (fun q => { State.reset with regs := q }) hregs

end Sys2Proof.Machine


namespace Sys2Proof.Machine

/-! ## What a step keeps, reads and stops on (40_core_step.md R89 to R91; 60_exceptions.md R138) -/

/-- Settles O47: the two cases of one step. -/
theorem stepStopsOnlyOnTrappedUnclassifiedWords : Obligations.StepStopsOnlyOnTrappedUnclassifiedWords :=
  fun s => ⟨step_of_stops, fun h => ⟨s.afterEdge, step_of_not_stops h⟩⟩

/-- Settles O48: a step goes on to `afterEdge` only, which keeps the parameters and drops one cycle; x0 reads 0 in
every state. -/
theorem stepKeepsParametersAndConsumesOneCycle : Obligations.StepKeepsParametersAndConsumesOneCycle := by
  intro p s t hinv h
  obtain ⟨-, rfl⟩ := step_eq_next_iff.1 h
  exact ⟨⟨RegFile.read_x0 _, hinv.params⟩, rfl⟩

/-- Settles O49: the reset state holds the default parameters, and x0 reads 0 in every state. -/
theorem resetMeetsTheInvariant : Obligations.ResetMeetsTheInvariant :=
  ⟨RegFile.read_x0 _, State.reset_params⟩

/-- An edge acts on `rst`, `instr_valid` and `instr` alone. -/
theorem regsAfterCycle_congr {c c' : Cycle} (hrst : c.rst = c'.rst) (hvalid : c.instrValid = c'.instrValid)
    (hinstr : c.instr = c'.instr) (alt : BitVec 7) (r : RegFile) :
    regsAfterCycle alt r c = regsAfterCycle alt r c' := by
  simp only [regsAfterCycle, hrst, hvalid, hinstr]

/-- Settles O45: whether a step goes on, and the registers it leaves, read the three inputs, the registers and the
parameters alone. -/
theorem stepReadsOnlyTheWordAndTheRegisters : Obligations.StepReadsOnlyTheWordAndTheRegisters := by
  intro s s' t hregs hparams hrst hvalid hinstr h
  obtain ⟨hgo, rfl⟩ := step_eq_next_iff.1 h
  have hillegal : s.illegal = s'.illegal := by
    simp only [State.illegal, hrst, hvalid, hinstr, hparams]
  rw [hparams, hillegal] at hgo
  refine ⟨s'.afterEdge, step_of_not_stops hgo, ?_⟩
  rw [State.afterEdge_regs, State.afterEdge_regs, hregs, hparams, regsAfterCycle_congr hrst hvalid hinstr]

/-! ## One step by the kind of its cycle (40_core_step.md R89 to R95; 70_reset_and_hazards.md R141) -/

section Cons

variable {s : State} {c : Cycle} {rest : List Cycle}

/-- `illegal` in a state that lists a cycle. -/
theorem illegal_cons_iff (hin : s.inputs = c :: rest) : s.illegal = true ↔
    c.rst = false ∧ c.instrValid = true ∧ decodeWith s.params.altFunct7 c.instr = .unclassified c.instr := by
  rw [illegal_iff, s.presented_cons hin]

theorem step_cons_of_classified {i : Instr} (hin : s.inputs = c :: rest) (hrst : c.rst = false)
    (hvalid : c.instrValid = true) (hdec : decodeWith s.params.altFunct7 c.instr = .classified i) :
    step s = exec i { s with inputs := rest } := by
  rw [step_cons hin, clockEdge_of_valid _ hrst hvalid]
  exact acceptWord_of_classified _ hdec

theorem step_cons_of_unclassified (hin : s.inputs = c :: rest) (hrst : c.rst = false)
    (hvalid : c.instrValid = true) (hdec : decodeWith s.params.altFunct7 c.instr = .unclassified c.instr) :
    step s = raiseUnclassified c.instr { s with inputs := rest } := by
  rw [step_cons hin, clockEdge_of_valid _ hrst hvalid]
  exact acceptWord_of_unclassified _ hdec

end Cons

/-- Settles O38: the second part is the first, the presented word standing before the listed cycles. -/
theorem stepRunsTheDecodedInstruction : Obligations.StepRunsTheDecodedInstruction :=
  ⟨fun _ _ _ _ hin hrst hvalid hdec => step_cons_of_classified hin hrst hvalid hdec,
    fun s nbits w _ hdec => step_cons_of_classified (s := s.withFetchWord nbits w) rfl rfl rfl hdec⟩

/-- Settles O39: the step is the one operation for the unclassified outcome, which the policy decides. -/
theorem unclassifiedWordsChangeNothing : Obligations.UnclassifiedWordsChangeNothing := by
  intro s c rest hin hrst hvalid hdec
  have hstep := step_cons_of_unclassified hin hrst hvalid hdec
  exact ⟨(illegal_cons_iff hin).2 ⟨hrst, hvalid, hdec⟩,
    fun hp => hstep.trans (raiseUnclassified_of_ignore _ _ hp),
    fun hp => hstep.trans (raiseUnclassified_of_trap _ _ hp)⟩

/-- Settles O41: past the end of the list the idle cycle is presented and dropping it drops nothing. -/
theorem idleEdgesChangeNothing : Obligations.IdleEdgesChangeNothing := by
  refine ⟨fun s hin => ?_, fun s c rest hin hrst hvalid => ?_⟩
  · have hidle := s.presented_nil hin
    have hadvance : s.advance = s := by rw [State.advance, hin, List.tail_nil, ← hin]
    refine ⟨?_, ?_⟩
    · rw [State.illegal, hidle]; rfl
    · rw [step, hidle, clockEdge_of_idle _ rfl rfl, hadvance]
  · refine ⟨Bool.eq_false_iff.2 fun h => ?_, (step_cons hin).trans (clockEdge_of_idle _ hrst hvalid)⟩
    obtain ⟨-, hvalid', -⟩ := (illegal_cons_iff hin).1 h
    exact Bool.false_ne_true (hvalid.symm.trans hvalid')

/-- Settles O42: reset is tested before the word. -/
theorem resetEdgesClearTheRegisters : Obligations.ResetEdgesClearTheRegisters := by
  intro s c rest hin hrst
  refine ⟨Bool.eq_false_iff.2 fun h => ?_, _, (step_cons hin).trans (clockEdge_of_rst _ hrst),
    RegFile.read_zero, rfl, rfl⟩
  obtain ⟨hrst', -⟩ := (illegal_cons_iff hin).1 h
  exact Bool.false_ne_true (hrst'.symm.trans hrst)

/-- Reading after a register write, x0 told apart first. -/
theorem x_writeReg_eq_ite (s : State) (i j : RegIdx) (v : Word) :
    (s.writeReg i v).x j = if j = 0#5 then 0#32 else if j = i then v else s.x j := by
  by_cases hj : j = 0#5
  · rw [hj, if_pos rfl]
    exact RegFile.read_x0 _
  · rw [State.x_writeReg, if_neg hj]
    by_cases hji : j = i
    · rw [if_pos hji, if_pos hji, if_neg fun hi => hj (hji.trans hi)]
    · rw [if_neg hji, if_neg hji]

/-- Settles O44: after the edge the register file is the held one with the destination written, and the port reads
it like any register. -/
theorem observationPortShowsTheWriteAfterTheEdge : Obligations.ObservationPortShowsTheWriteAfterTheEdge := by
  intro s c c' rest i hin hrst hvalid hdec
  have hstep := (step_cons_of_classified hin hrst hvalid hdec).trans (exec_eq_writeReg _ _)
  refine ⟨by rw [State.dbgRdata, s.presented_cons hin], _, _, hstep, onlyWrites_writeReg _ _ _, ?_⟩
  rw [State.dbgRdata, State.presented_cons _ rfl, x_writeReg_eq_ite]
  rfl

end Sys2Proof.Machine


namespace Sys2Proof.Machine

/-! ## The opcode map against the decoder (30_encoding.md R65, R67, R71) -/

/-- The wide mask clears the register fields of an R-type word and keeps the rest. -/
theorem encR_and_wideMask {f7 : BitVec 7} {f3 : BitVec 3}
    (hmatch : encR f7 0#5 0#5 f3 0#5 &&& 0xFE00707F#32 = encR f7 0#5 0#5 f3 0#5) (rs2 rs1 rd : RegIdx) :
    encR f7 rs2 rs1 f3 rd &&& 0xFE00707F#32 = encR f7 0#5 0#5 f3 0#5 := by
  obtain ⟨-, -, hf3, -, -, hf7⟩ := extract_encR f7 rs2 rs1 f3 rd
  obtain ⟨-, -, hf3', -, -, hf7'⟩ := extract_encR f7 0#5 0#5 f3 0#5
  exact (and_wideMask_eq_iff _ _ hmatch).2
    ⟨(encR_opcode ..).trans (encR_opcode ..).symm, hf3.trans hf3'.symm, hf7.trans hf7'.symm⟩

/-- The narrow mask clears the register fields and the immediate of an I-type word and keeps the rest. -/
theorem encI_and_narrowMask {f3 : BitVec 3}
    (hmatch : encI 0#12 0#5 f3 0#5 &&& 0x0000707F#32 = encI 0#12 0#5 f3 0#5) (m : BitVec 12) (rs1 rd : RegIdx) :
    encI m rs1 f3 rd &&& 0x0000707F#32 = encI 0#12 0#5 f3 0#5 := by
  obtain ⟨-, -, hf3, -, -⟩ := extract_encI m rs1 f3 rd
  obtain ⟨-, -, hf3', -, -⟩ := extract_encI 0#12 0#5 f3 0#5
  exact (and_narrowMask_eq_iff _ _ hmatch).2
    ⟨(encI_opcode ..).trans (encI_opcode ..).symm, hf3.trans hf3'.symm⟩

/-- The selector of a shift word is its bits 31..25. -/
theorem encShift_selector (sel : BitVec 7) (k : BitVec 5) (rs1 : RegIdx) (f3 : BitVec 3) (rd : RegIdx) :
    (encShift sel k rs1 f3 rd).extractLsb' 25 7 = sel := by
  obtain ⟨-, -, -, -, himm⟩ := extract_encI (sel ++ k) rs1 f3 rd
  rw [← immField_selector]
  exact (congrArg (BitVec.extractLsb' 5 7) himm).trans (shiftParts sel k).1

/-- The wide mask clears the registers and the amount of a shift word and keeps the rest. -/
theorem encShift_and_wideMask {sel : BitVec 7} {f3 : BitVec 3}
    (hmatch : encShift sel 0#5 0#5 f3 0#5 &&& 0xFE00707F#32 = encShift sel 0#5 0#5 f3 0#5)
    (k : BitVec 5) (rs1 rd : RegIdx) :
    encShift sel k rs1 f3 rd &&& 0xFE00707F#32 = encShift sel 0#5 0#5 f3 0#5 := by
  obtain ⟨-, -, hf3, -, -⟩ := extract_encI (sel ++ k) rs1 f3 rd
  obtain ⟨-, -, hf3', -, -⟩ := extract_encI (sel ++ 0#5) 0#5 f3 0#5
  exact (and_wideMask_eq_iff _ _ hmatch).2 ⟨(encI_opcode ..).trans (encI_opcode ..).symm,
    hf3.trans hf3'.symm, (encShift_selector ..).trans (encShift_selector ..).symm⟩

/-- An instruction's word lies in the row of its operation. -/
theorem matchesRow_encode (i : Instr) : matchesRow (encode i) i.op = true := by
  rw [matchesRow, beq_iff_eq]
  cases i with
  | addi rd a imm | slti rd a imm | sltiu rd a imm | xori rd a imm | ori rd a imm | andi rd a imm =>
    exact encI_and_narrowMask rfl _ a rd
  | slli rd a k | srli rd a k | srai rd a k => exact encShift_and_wideMask rfl k a rd
  | add rd a b | sub rd a b | sll rd a b | slt rd a b | sltu rd a b | xor rd a b | srl rd a b | sra rd a b
  | or rd a b | and rd a b => exact encR_and_wideMask rfl b a rd

/-- A word of a row dispatches to the row's operation: the mask keeps all that dispatch reads. -/
theorem dispatch_of_matchesRow {w : Word} {op : Operation} (h : matchesRow w op = true) :
    dispatchWith altFunct7 (extract w) = some op := by
  rw [matchesRow, beq_iff_eq] at h
  cases op with
  | addi | slti | sltiu | xori | ori | andi => exact dispatchWith_of_narrowMask h rfl fun _ => rfl
  | _ => exact (dispatchWith_of_wideMask h).trans rfl

/-- A row's words are those that dispatch to its operation. -/
theorem matchesRow_iff {w : Word} {op : Operation} :
    matchesRow w op = true ↔ dispatchWith altFunct7 (extract w) = some op := by
  refine ⟨dispatch_of_matchesRow, fun h => ?_⟩
  have hrow := matchesRow_encode (op.build (extract w))
  rwa [encode, encodeWith_build_of_dispatchWith h, build_op] at hrow

/-- The operation of a classified word's instruction is the one the word dispatches to. -/
theorem dispatchWith_eq_some_iff {alt : BitVec 7} {w : Word} {op : Operation} :
    dispatchWith alt (extract w) = some op ↔ ∃ i, decodeWith alt w = .classified i ∧ i.op = op := by
  constructor
  · exact fun h => ⟨_, decodeWith_of_dispatch h, build_op op _⟩
  · rintro ⟨i, hdec, rfl⟩
    rcases decodeWith_cases alt w with ⟨op, hd, hop⟩ | ⟨-, hun⟩
    · obtain rfl : op.build (extract w) = i := Decoded.classified.inj (hop.symm.trans hdec)
      rw [hd, build_op]
    · rw [hun] at hdec; cases hdec

theorem dispatchWith_eq_none_iff {alt : BitVec 7} {w : Word} :
    dispatchWith alt (extract w) = none ↔ decodeWith alt w = .unclassified w := by
  rw [← unclassifiedWith_iff, unclassifiedWith, Option.isNone_iff_eq_none]

/-- No row holds a word exactly when the word is unclassified. -/
theorem matchesRow_eq_false_iff {w : Word} :
    (∀ op, matchesRow w op = false) ↔ decode w = .unclassified w := by
  rw [decode, ← dispatchWith_eq_none_iff, Option.eq_none_iff_forall_ne_some]
  simp only [Bool.eq_false_iff, ne_eq, matchesRow_iff]

/-- Settles O7: the row of a word is its dispatch, which has one value. -/
theorem everyWordIsExactlyItsRow : Obligations.EveryWordIsExactlyItsRow := by
  intro w
  refine ⟨fun op => matchesRow_iff.trans dispatchWith_eq_some_iff, fun a b ha hb => ?_, matchesRow_eq_false_iff⟩
  exact Option.some.inj ((matchesRow_iff.1 ha).symm.trans (matchesRow_iff.1 hb))

/-- Settles O43: with the spec's `ALT_FUNCT7` the words no row holds are the unclassified ones. -/
theorem illegalOutputIsItsEquation : Obligations.IllegalOutputIsItsEquation := by
  intro s halt
  rw [illegal_iff, matchesRow_eq_false_iff, halt, ← decode, and_left_comm]

/-! ## The unclassified space (30_encoding.md R62, R64, R66) -/

theorem decodeWith_of_formatU {alt : BitVec 7} {w : Word} (hop : bitsAt w 0 7 ≠ 0b0110011#7)
    (himm : bitsAt w 0 7 ≠ 0b0010011#7) : decodeWith alt w = .unclassified w := by
  rw [← extractLsb'_eq_bitsAt] at hop himm
  rw [← dispatchWith_eq_none_iff, dispatchWith_extract, formatOf_eq_U_iff.2 ⟨hop, himm⟩]

theorem decodeWith_of_dispatchR_none {alt : BitVec 7} {w : Word} (hop : bitsAt w 0 7 = 0b0110011#7)
    (hnone : dispatchR alt (bitsAt w 25 7) (bitsAt w 12 3) = none) : decodeWith alt w = .unclassified w := by
  rw [← extractLsb'_eq_bitsAt] at hop
  rw [← dispatchWith_eq_none_iff, dispatchWith_extract, formatOf_eq_R_iff.2 hop, extractLsb'_eq_bitsAt,
    extractLsb'_eq_bitsAt]
  exact hnone

theorem decodeWith_of_dispatchI_none {alt : BitVec 7} {w : Word} (hop : bitsAt w 0 7 = 0b0010011#7)
    (hnone : dispatchI alt (bitsAt w 25 7) (bitsAt w 12 3) = none) : decodeWith alt w = .unclassified w := by
  rw [← extractLsb'_eq_bitsAt] at hop
  rw [← dispatchWith_eq_none_iff, dispatchWith_extract, formatOf_eq_I_iff.2 hop, extractLsb'_eq_bitsAt,
    extractLsb'_eq_bitsAt]
  exact hnone

/-- The alternate column's empty cells (R62). -/
theorem altColumn_eq_none {f3 : BitVec 3} (hsub : f3 ≠ 0b000#3) (hsra : f3 ≠ 0b101#3) : altColumn f3 = none := by
  unfold altColumn
  split
  · exact absurd rfl hsub
  · exact absurd rfl hsra
  · rfl

/-- Outside column 0, an R-type pair names no operation in another column or in an empty cell (R62). -/
theorem dispatchR_eq_none {alt f7 : BitVec 7} {f3 : BitVec 3} (hzero : f7 ≠ 0#7)
    (h : f7 ≠ alt ∨ (f3 ≠ 0b000#3 ∧ f3 ≠ 0b101#3)) : dispatchR alt f7 f3 = none := by
  rw [dispatchR, if_neg hzero]
  by_cases halt : f7 = alt
  · obtain ⟨hsub, hsra⟩ := h.resolve_left (not_not_intro halt)
    rw [if_pos halt, altColumn_eq_none hsub hsra]
  · rw [if_neg halt]

/-- Settles O11: in each clause the dispatch table has no operation. -/
theorem wordsOutsideTheTableAreUnclassified : Obligations.WordsOutsideTheTableAreUnclassified := by
  intro alt w
  refine ⟨decodeWith_of_formatU, fun hop hzero h => ?_, fun hop hf3 hzero => ?_, fun hop hf3 hzero halt => ?_⟩
  · exact decodeWith_of_dispatchR_none hop (dispatchR_eq_none hzero h)
  · exact decodeWith_of_dispatchI_none hop (by rw [hf3]; exact if_neg hzero)
  · exact decodeWith_of_dispatchI_none hop (by rw [hf3]; exact (if_neg hzero).trans (if_neg halt))

/-- Settles O40: none of the ten opcodes is one of the core's two, so the word is unclassified. -/
theorem excludedInstructionClassesChangeNothing : Obligations.ExcludedInstructionClassesChangeNothing := by
  intro s c rest hin hrst hvalid hignore hop
  have hdec : decodeWith s.params.altFunct7 c.instr = .unclassified c.instr :=
    decodeWith_of_formatU (fun h => by rw [h] at hop; revert hop; decide)
      (fun h => by rw [h] at hop; revert hop; decide)
  obtain ⟨hillegal, hgo, -⟩ := unclassifiedWordsChangeNothing s c rest hin hrst hvalid hdec
  exact ⟨hillegal, _, hgo hignore, fun _ => rfl⟩

/-! ## Sample words, and words from bytes (30_encoding.md R52; 00_scope.md R12) -/

/-- Settles O10: the decoder runs on each of the thirteen words. -/
theorem sampleWordsDecodeToTheirInstructions : Obligations.SampleWordsDecodeToTheirInstructions := by
  unfold Obligations.SampleWordsDecodeToTheirInstructions
  decide

/-- Four bytes appended, the first of them highest, by plain arithmetic. -/
theorem toNat_append_bytes (b3 b2 b1 b0 : Byte) : (b3 ++ b2 ++ b1 ++ b0 : Word).toNat =
    b0.toNat + b1.toNat * 2 ^ 8 + b2.toNat * 2 ^ 16 + b3.toNat * 2 ^ 24 := by
  have := b0.isLt; have := b1.isLt; have := b2.isLt; have := b3.isLt
  rw [BitVec.toNat_append, BitVec.toNat_append, BitVec.toNat_append,
    ← Nat.shiftLeft_add_eq_or_of_lt (by omega), ← Nat.shiftLeft_add_eq_or_of_lt (by omega),
    ← Nat.shiftLeft_add_eq_or_of_lt (by omega)]
  simp only [Nat.shiftLeft_eq]
  omega

theorem decodeBytes_of_classified {o : Config.FetchByteOrder} {b0 b1 b2 b3 : Byte} {i : Instr}
    (h : decode (wordOfBytes o b0 b1 b2 b3) = .classified i) (rest : List Byte) :
    decodeBytes o (b0 :: b1 :: b2 :: b3 :: rest) = .ok (i, rest) := by
  rw [decodeBytes, h]

theorem decodeBytes_of_unclassified {o : Config.FetchByteOrder} {b0 b1 b2 b3 : Byte} {w : Word}
    (h : decode (wordOfBytes o b0 b1 b2 b3) = .unclassified w) (rest : List Byte) :
    decodeBytes o (b0 :: b1 :: b2 :: b3 :: rest) = .error (.unclassified w) := by
  rw [decodeBytes, h]

theorem decodeBytes_of_short (o : Config.FetchByteOrder) {bs : List Byte} (h : bs.length < 4) :
    decodeBytes o bs = .error (.truncated bs.length) := by
  match bs, h with
  | [], _ | [_], _ | [_, _], _ | [_, _, _], _ => rfl

/-- Settles O12: the two orders append the bytes in opposite directions, and a byte image is read by its word. -/
theorem byteImagesDecodeInEitherOrder : Obligations.ByteImagesDecodeInEitherOrder :=
  ⟨fun b0 b1 b2 b3 => ⟨toNat_append_bytes b3 b2 b1 b0, toNat_append_bytes b0 b1 b2 b3⟩,
    fun _ _ _ _ _ rest _ h => decodeBytes_of_classified h rest,
    fun _ _ _ _ _ rest _ h => decodeBytes_of_unclassified h rest,
    fun o _ h => decodeBytes_of_short o h⟩

end Sys2Proof.Machine


namespace Sys2Proof.Machine

/-! ## The comparisons and the shifts with an immediate (42_alu_immediate.md R112, R113, R117 to R119) -/

/-- Settles O24: the row's match dispatches to SLTI for every selector, and the ALU compares signed values. -/
theorem sltiWritesTheSignedComparison : Obligations.SltiWritesTheSignedComparison :=
  ⟨fun _ h => decode_immediateForm_of_narrowMask (op := .slti) h rfl (fun _ => rfl) fun _ => rfl,
    fun rd rs1 imm s => executes_of_resultOf (.slti rd rs1 imm) s (aluSlt_toNat _ _)⟩

/-- Settles O25: the row's match dispatches to SLTIU for every selector, and the ALU compares unsigned values. -/
theorem sltiuWritesTheUnsignedComparison : Obligations.SltiuWritesTheUnsignedComparison :=
  ⟨fun _ h => decode_immediateForm_of_narrowMask (op := .sltiu) h rfl (fun _ => rfl) fun _ => rfl,
    fun rd rs1 imm s => executes_of_resultOf (.sltiu rd rs1 imm) s (aluSltu_toNat _ _)⟩

/-- A word whose row's match dispatches to a shift-immediate form decodes to that form of the registers its fields
name and of its amount, bits 24..20 (R57, R71). -/
theorem decode_shiftForm_of_wideMask {w v : Word} {op : Operation} {form : RegIdx → RegIdx → BitVec 5 → Instr}
    (h : w &&& 0xFE00707F#32 = v) (hop : dispatchWith altFunct7 (extract v) = some op)
    (hform : ∀ d, op.build d = form d.rd d.rs1 (d.imm.extractLsb' 0 5)) :
    decode w = .classified (form (bitsAt w 7 5) (bitsAt w 15 5) (bitsAt w 20 5)) := by
  have hshamt : (extract w).imm.extractLsb' 0 5 = w.extractLsb' 20 5 := immField_shamt w
  have hfields : op.build (extract w) = form (bitsAt w 7 5) (bitsAt w 15 5) (bitsAt w 20 5) := by
    rw [hform, hshamt, ← extractLsb'_eq_bitsAt, ← extractLsb'_eq_bitsAt, ← extractLsb'_eq_bitsAt]
    rfl
  rw [decode, decodeWith_of_dispatch ((dispatchWith_of_wideMask h).trans hop), hfields]

/-- A shift amount as an operand is below 32, so the ALU's mask keeps it (R97, R120). -/
theorem operandShamt_toNat_mod (k : BitVec 5) : (operandShamt k).toNat % 32 = k.toNat := by
  rw [← shiftAmount_eq, shiftAmount_operandShamt]

section ShiftImmediate

variable (a : Word) (k : BitVec 5)

theorem aluSll_operandShamt_toNat : (aluSll a (operandShamt k)).toNat = a.toNat * 2 ^ k.toNat % 2 ^ 32 := by
  rw [aluSll_toNat, operandShamt_toNat_mod]

theorem aluSrl_operandShamt_toNat : (aluSrl a (operandShamt k)).toNat = a.toNat / 2 ^ k.toNat := by
  rw [aluSrl_toNat, operandShamt_toNat_mod]

theorem aluSra_operandShamt_getLsbD {j : Nat} (hj : j < 32) :
    (aluSra a (operandShamt k)).getLsbD j = a.getLsbD (min (j + k.toNat) 31) := by
  rw [aluSra_getLsbD _ _ hj, operandShamt_toNat_mod]

end ShiftImmediate

/-- Settles O29: the row's match dispatches to SLLI, and the ALU multiplies by the power of two modulo 2^32. -/
theorem slliShiftsLeftByItsAmount : Obligations.SlliShiftsLeftByItsAmount :=
  ⟨fun _ h => decode_shiftForm_of_wideMask (op := .slli) h rfl fun _ => rfl,
    fun rd rs1 k s => executes_of_resultOf (.slli rd rs1 k) s (aluSll_operandShamt_toNat _ k)⟩

/-- Settles O30: the row's match dispatches to SRLI, and the ALU divides by the power of two. -/
theorem srliShiftsRightZeroFilled : Obligations.SrliShiftsRightZeroFilled :=
  ⟨fun _ h => decode_shiftForm_of_wideMask (op := .srli) h rfl fun _ => rfl,
    fun rd rs1 k s => executes_of_resultOf (.srli rd rs1 k) s (aluSrl_operandShamt_toNat _ k)⟩

/-- Settles O31: the row's match dispatches to SRAI, and the ALU reads bit 31 for every place past the top. -/
theorem sraiShiftsRightSignFilled : Obligations.SraiShiftsRightSignFilled :=
  ⟨fun _ h => decode_shiftForm_of_wideMask (op := .srai) h rfl fun _ => rfl,
    fun rd rs1 k s => executes_of_resultOf (.srai rd rs1 k) s fun _ hj => aluSra_operandShamt_getLsbD _ k hj⟩

/-! ## Writes to x0, an inverse, and the forms against each other (40_core_step.md R86; 42_alu_immediate.md R110) -/

/-- Settles O4: an instruction's one effect is its register write, which x0 discards. -/
theorem writesToX0ChangeNothing : Obligations.WritesToX0ChangeNothing := by
  intro i s hrd
  rw [exec_eq_writeReg, hrd, State.writeReg_x0]

/-- Settles O32: SUB reads the sum in `rd` and the operand `rb` unchanged. -/
theorem subUndoesAdd : Obligations.SubUndoesAdd := by
  intro rd ra rb s hrd hne
  refine ⟨_, _, exec_eq_writeReg _ s, exec_eq_writeReg _ _, ?_⟩
  have hsum : (s.writeReg rd (s.x ra + s.x rb)).x rd = s.x ra + s.x rb :=
    (onlyWrites_writeReg s rd _).dest.trans (if_neg hrd)
  have hrb : (s.writeReg rd (s.x ra + s.x rb)).x rb = s.x rb := (onlyWrites_writeReg s rd _).others rb hne.symm
  calc _ = (s.writeReg rd (s.x ra + s.x rb)).x rd - (s.writeReg rd (s.x ra + s.x rb)).x rb :=
        (onlyWrites_writeReg _ rd _).dest.trans (if_neg hrd)
    _ = s.x ra + s.x rb - s.x rb := by rw [hsum, hrb]
    _ = s.x ra := BitVec.add_sub_cancel _ _

/-- Two instructions with one destination and one result do the same. -/
theorem exec_congr {i j : Instr} {s : State} (hrd : i.rd = j.rd) (hresult : resultOf i s = resultOf j s) :
    exec i s = exec j s := by
  rw [exec_eq_writeReg, exec_eq_writeReg, hrd, hresult]

/-- Settles O34: an immediate form's result is its register form's at the operand the immediate is, and a shift sees
of that operand its amount only. -/
theorem immediateFormsAreTheRegisterForms : Obligations.ImmediateFormsAreTheRegisterForms := by
  intro rd rs1 rs2 s
  refine ⟨?_, fun k hk => ?_⟩
  · rintro imm rfl
    exact ⟨rfl, rfl, rfl, rfl, rfl, rfl⟩
  · have hamount : shiftAmount (operandShamt k) = shiftAmount (s.x rs2) := by
      rw [shiftAmount_operandShamt, shiftAmount_eq, hk]
    exact ⟨exec_congr rfl (congrArg (s.x rs1 <<< ·) hamount), exec_congr rfl (congrArg (s.x rs1 >>> ·) hamount),
      exec_congr rfl (congrArg (s.x rs1).sshiftRight hamount)⟩

/-! ## Checked accessors (10_state.md R30; 60_exceptions.md R125) -/

/-- Settles O3: the accessors test the index against 32 before they touch a register. -/
theorem checkedAccessorsRejectWideIndices : Obligations.CheckedAccessorsRejectWideIndices := by
  intro r i v
  refine ⟨fun hi => ?_, fun hi => ?_⟩
  · have hwide : ¬ i < 32 := by omega
    exact ⟨if_neg hwide, if_neg hwide⟩
  · have hfits : i < 32 := by omega
    exact ⟨if_pos hfits, if_pos hfits⟩

/-! ## Pseudo-instructions (30_encoding.md R75) -/

/-- A pseudo-instruction executes as its expansion does, whose result has the property. -/
theorem expandsAndExecutes {p : Pseudo} {i : Instr} {s : State} {result : Word → Prop}
    (hp : p.expand = some i) (h : result (resultOf i s)) : ExpandsAndExecutes p i.rd s result :=
  ⟨i, hp, executes_of_resultOf i s h⟩

section PseudoResults

variable (a : Word)

theorem aluXor_ones_getLsbD {k : Nat} (hk : k < 32) : (aluXor a 0xFFFFFFFF#32).getLsbD k = !a.getLsbD k := by
  have hones : 0xFFFFFFFF#32 = BitVec.allOnes 32 := by decide
  rw [aluXor_getLsbD, hones, BitVec.getLsbD_allOnes, decide_eq_true hk, Bool.bne_true]

theorem aluSub_zero_left_toNat : (aluSub 0#32 a).toNat = (2 ^ 32 - a.toNat) % 2 ^ 32 :=
  BitVec.toNat_sub 0#32 a

theorem aluSltu_one_toNat : (aluSltu a 1#32).toNat = if a.toNat = 0 then 1 else 0 :=
  (aluSltu_toNat a 1#32).trans (if_congr Nat.lt_one_iff rfl rfl)

theorem aluSltu_zero_left_toNat : (aluSltu 0#32 a).toNat = if a.toNat = 0 then 0 else 1 :=
  calc (aluSltu 0#32 a).toNat = if 0 < a.toNat then 1 else 0 := aluSltu_toNat 0#32 a
    _ = if a.toNat ≠ 0 then 1 else 0 := if_congr Nat.pos_iff_ne_zero rfl rfl
    _ = if a.toNat = 0 then 0 else 1 := ite_not ..

theorem aluAnd_255_toNat : (aluAnd a 255#32).toNat = a.toNat % 256 :=
  (BitVec.toNat_and a 255#32).trans (Nat.and_two_pow_sub_one_eq_mod a.toNat 8)

end PseudoResults

/-- `li` with a written immediate gives its signed value. -/
theorem expandsAndExecutes_li (rd : RegIdx) (s : State) {n : Int} {imm : Word} (h : immOfInt n = some imm) :
    ExpandsAndExecutes (.li rd n) rd s (fun v => v.toInt = n) :=
  expandsAndExecutes (i := .addi rd 0#5 imm) (by rw [expand_li, h]; rfl)
    ((congrArg BitVec.toInt (BitVec.zero_add imm)).trans (toInt_of_immOfInt h))

theorem expand_li_eq_none {rd : RegIdx} {n : Int} (h : immOfInt n = none) : Pseudo.expand (.li rd n) = none := by
  rw [expand_li, h]; rfl

/-- Every expansion has an encoding: `li`'s immediate was in range, the others are written out. -/
theorem wellFormed_of_expand {p : Pseudo} {i : Instr} (h : p.expand = some i) : i.wellFormed = true := by
  cases p with
  | li rd n =>
    obtain ⟨imm, himm, rfl⟩ := Option.map_eq_some_iff.1 h
    exact immFits_of_immOfInt himm
  | _ => cases h; rfl

/-- Settles O36: each row's expansion has the row's result. -/
theorem pseudoInstructionsDoWhatTheTableSays : Obligations.PseudoInstructionsDoWhatTheTableSays :=
  ⟨fun rd rs s =>
    ⟨⟨_, rfl, writesToX0ChangeNothing _ s rfl⟩,
      fun _ hlo hhi => expandsAndExecutes_li rd s (immOfInt_eq_some_iff.2 ⟨⟨hlo, hhi⟩, rfl⟩),
      expandsAndExecutes (i := .addi rd rs 0#32) rfl (BitVec.add_zero _),
      expandsAndExecutes (i := .xori rd rs 0xFFFFFFFF#32) rfl fun _ hk => aluXor_ones_getLsbD _ hk,
      expandsAndExecutes (i := .sub rd 0#5 rs) rfl (aluSub_zero_left_toNat _),
      expandsAndExecutes (i := .sltiu rd rs 1#32) rfl (aluSltu_one_toNat _),
      expandsAndExecutes (i := .sltu rd 0#5 rs) rfl (aluSltu_zero_left_toNat _),
      expandsAndExecutes (i := .slt rd rs 0#5) rfl (aluSlt_toNat _ _),
      expandsAndExecutes (i := .slt rd 0#5 rs) rfl (aluSlt_toNat _ _),
      expandsAndExecutes (i := .andi rd rs 255#32) rfl (aluAnd_255_toNat _)⟩,
    fun _ _ hn => expand_li_eq_none (immOfInt_eq_none_iff.2 hn),
    fun _ _ h => wellFormed_of_expand h⟩

/-! ## Assembler lines (30_encoding.md R73, R74) -/

/-- An immediate that fits its field is what its signed value is written as. -/
theorem immOfInt_toInt {imm : Word} (h : immFits imm = true) : immOfInt imm.toInt = some imm := by
  have hext : imm.toInt = (imm.setWidth 12).toInt :=
    (congrArg BitVec.toInt (beq_iff_eq.1 h)).symm.trans (BitVec.toInt_signExtend_of_le (by omega))
  have hlo := BitVec.le_toInt (imm.setWidth 12)
  have hhi := BitVec.toInt_lt (x := imm.setWidth 12)
  exact immOfInt_eq_some_iff.2 ⟨by omega, BitVec.ofInt_toInt.symm⟩

theorem shamtOfInt_toNat (k : BitVec 5) : shamtOfInt k.toNat = some k := by
  have := k.isLt
  exact shamtOfInt_eq_some_iff.2 ⟨by omega, by simp⟩

/-- The line of a well-formed instruction assembles to it. -/
theorem assemble_disassemble {i : Instr} (h : i.wellFormed = true) : assemble (disassemble i) = some i := by
  cases i with
  | addi rd a imm | slti rd a imm | sltiu rd a imm | xori rd a imm | ori rd a imm | andi rd a imm =>
    exact congrArg (Option.map _) (immOfInt_toInt h)
  | slli rd a k | srli rd a k | srai rd a k => exact congrArg (Option.map _) (shamtOfInt_toNat k)
  | _ => rfl

/-- What a line assembles to is well-formed and the line is its own. -/
theorem wellFormed_disassemble_of_assemble {l : AsmLine} {i : Instr} (h : assemble l = some i) :
    i.wellFormed = true ∧ disassemble i = l := by
  unfold assemble at h
  split at h
  case h_11 | h_12 | h_13 | h_14 | h_15 | h_16 =>
    obtain ⟨imm, himm, rfl⟩ := Option.map_eq_some_iff.1 h
    obtain rfl := toInt_of_immOfInt himm
    exact ⟨immFits_of_immOfInt himm, rfl⟩
  case h_17 | h_18 | h_19 =>
    obtain ⟨k, hk, rfl⟩ := Option.map_eq_some_iff.1 h
    obtain rfl := toNat_of_shamtOfInt hk
    exact ⟨rfl, rfl⟩
  case h_20 => cases h
  all_goals cases h; exact ⟨rfl, rfl⟩

/-- Settles O37: the two round trips, and the two ranges through what an integer can be written for. -/
theorem assemblyLinesRoundTrip : Obligations.AssemblyLinesRoundTrip := by
  refine ⟨fun i h => assemble_disassemble h, fun l i h => wellFormed_disassemble_of_assemble h, ?_, ?_⟩
  · intro op hop rd rs1 n hn
    have hnone := immOfInt_eq_none_iff.2 hn
    simp only [List.mem_cons, List.not_mem_nil, or_false] at hop
    rcases hop with rfl | rfl | rfl | rfl | rfl | rfl <;> exact congrArg (Option.map _) hnone
  · intro op hop rd rs1 n hn
    have hnone := shamtOfInt_eq_none_iff.2 hn
    simp only [List.mem_cons, List.not_mem_nil, or_false] at hop
    rcases hop with rfl | rfl | rfl <;> exact congrArg (Option.map _) hnone

end Sys2Proof.Machine
